-- ==== Sys2Proof/Word.lean ====
section
/-! DEFINITION. The word types of the timer configuration engine (TCE) and nothing else: the widths the spec fixes for the
request record (30_encoding R90) and for the three control registers (10_state R42). Counts, thresholds, clock cycles and
durations are mathematical integers in the spec (00_scope R12) and are `Nat` or `Int` in the model. -/

namespace Sys2Proof

/-- The word `CTRL` of a request: 16 bits (30_encoding R90, R91). -/
abbrev CtrlWord := BitVec 16

/-- A duration word of a request, `PERIOD` or `ON`: `TIME_W = 64` bits (30_encoding R90, R92; log 4). -/
abbrev DurationWord := BitVec 64

/-- A logical output identifier, 0..255 (30_encoding R91, R93). -/
abbrev PinId := BitVec 8

/-- The contents of one of the 8-bit control registers IEN, MODE, DIV (10_state R42). -/
abbrev Reg8 := BitVec 8

end Sys2Proof
end

