-- ==== Sys2Proof/Config.lean ====
section
/-! DEFINITION. Configuration data of the TCE, which no step changes (00_scope R9, 10_state R31 to R39): the PeripheralSpec
record, the record of all parameters of a system of three instances, the reference configuration, and the open values to
which the spec gives no number (opaque constants without a body, so that no proof can lean on one). -/

namespace Sys2Proof

/-- The instances of a system, one per peripheral: "three peripheral variants of this engine" (00_scope R10, 10_state R38,
60_exceptions R230). The names are the reference configuration's; what each is, its PeripheralSpec says. -/
inductive InstId where
  | t16
  | t8a
  | t8b
deriving DecidableEq, Repr

/-- The register bit-width `W` of a peripheral: "8-bit or 16-bit" (10_state R31; R32 item 1 holds by this type). -/
inductive Width where
  | w8
  | w16
deriving DecidableEq, Repr

/-- `W` as a number of bits. -/
def Width.bits : Width → Nat
  | .w8 => 8
  | .w16 => 16

/-- `spec.layout`: the bit position, 0..7, of each of the five things the source gives one (10_state R31, R36). -/
structure Layout where
  modePos : Fin 8
  ienAPos : Fin 8
  ienBPos : Fin 8
  ocAPos : Fin 8
  ocBPos : Fin 8
deriving DecidableEq, Repr

/-- One legal output pin: the identifier a request names and the bit of `GPIO_DIR` of its direction (10_state R31, R37). -/
structure Pin where
  id : PinId
  gpioBit : Nat
deriving DecidableEq, Repr

/-- `spec.pins`: the pin of each output-compare channel, where there is one (10_state R31, R37). -/
structure PinMap where
  pinA : Option Pin
  pinB : Option Pin
deriving DecidableEq, Repr

/-- A PeripheralSpec: the immutable record of one peripheral (10_state R31). `dividers` is `D`, `steps` is `S`. -/
structure PeripheralSpec where
  name : String
  width : Width
  dividers : List Nat
  steps : List Nat
  layout : Layout
  pins : PinMap
deriving DecidableEq, Repr

/-- `register_max = 2^W - 1`, 255 or 65535 (10_state R31). -/
def PeripheralSpec.registerMax (p : PeripheralSpec) : Nat := 2 ^ p.width.bits - 1

/-- The parameters of a system: `F_CLK`, `TPS`, `GPIO_W` and the PeripheralSpec of each instance (00_scope R9).
It stands in State as a record no step changes, so that a claim about every state is a claim about every value of the
open parameters (DESIGN CHOICE, log 1, safe).
There is one `fClk` and one `tps` for the whole system, where 00_scope R9 calls the parameters constants of an instance and
does not say whether those of two instances may differ (DESIGN CHOICE, log 22). `gpioW` is one because `GPIO_DIR` is one
(10_state R49). -/
structure Config where
  fClk : Nat
  tps : Nat
  gpioW : Nat
  t16 : PeripheralSpec
  t8a : PeripheralSpec
  t8b : PeripheralSpec
deriving DecidableEq, Repr

/-- The PeripheralSpec of an instance. -/
def Config.spec (c : Config) : InstId → PeripheralSpec
  | .t16 => c.t16
  | .t8a => c.t8a
  | .t8b => c.t8b

/-! ### Open values: opaque constants, nothing is known of any of them -/

/-- FREE VALUE: what the counter of an instance holds when it has run since the last step ("an unconstrained value ... a
draw", 10_state R48). The step applies it to a count of the draws and to the instance, and cuts it to the register's
width. DEDUCED, log 9, safe. -/
opaque Config.freeCount : Nat → InstId → Nat

/-- OPEN `T8B_D[0] = T8B_S[0]`, less one: the first divider of the irregular variant (10_state R39). Log 3, safe. -/
opaque Config.t8bFirstDivider : Nat

/-- OPEN: how many entries `T8B_S` and `T8B_D` have after the first (10_state R39, R32 item 2). Log 3, safe. -/
opaque Config.t8bExtraSteps : Fin 7

/-- OPEN: whether the alternation of the irregular variant's step factors starts with 8 or with 4 (10_state R34, R39).
Log 3, safe. -/
opaque Config.t8bEightFirst : Bool

/-- OPEN: by how much, less one, each divider of `T8B_D` exceeds the one before it (10_state R39, R32 item 3). Log 3, safe. -/
opaque Config.t8bGap : Nat → Nat

/-- OPEN `REG_BASE`: the physical address of the register with a given id of an instance (20_memory R81, 93 U16). No rule
reads it. Log 19. -/
opaque Config.regBase : InstId → Nat → Nat

/-- OPEN: the physical address of `GPIO_DIR` (20_memory R81). No rule reads it. Log 19. -/
opaque Config.gpioDirAddress : Nat

/-! ### The reference configuration (10_state R36, R38) -/

/-- The reference bit layout, the same for all three reference instances (10_state R36). -/
def Layout.reference : Layout :=
  { modePos := 0, ienAPos := 1, ienBPos := 2, ocAPos := 5, ocBPos := 4 }

/-- The canonical divider sequence of the source (10_state R33). -/
def PeripheralSpec.canonicalDividers : List Nat := [1, 8, 64, 256, 1024]

/-- The step factors whose running products are the canonical dividers (10_state R34). -/
def PeripheralSpec.canonicalSteps : List Nat := [1, 8, 8, 4, 4]

/-- A sequence of step factors that alternates between 4 and 8 (10_state R34, R39). -/
def PeripheralSpec.alternatingSteps (eightFirst : Bool) : Nat → List Nat
  | 0 => []
  | k + 1 => (if eightFirst then 8 else 4) :: alternatingSteps (!eightFirst) k

/-- A strictly ascending sequence that starts at `d` and goes on `k` times, each entry above the last by `gap` plus one. -/
def PeripheralSpec.risingDividers (gap : Nat → Nat) (d : Nat) : Nat → List Nat
  | 0 => [d]
  | k + 1 => d :: risingDividers gap (d + gap k + 1) k

/-- Reference instance T16 (10_state R38). -/
def PeripheralSpec.t16Reference : PeripheralSpec :=
  { name := "T16", width := .w16, dividers := PeripheralSpec.canonicalDividers, steps := PeripheralSpec.canonicalSteps,
    layout := Layout.reference, pins := { pinA := some ⟨2, 2⟩, pinB := some ⟨3, 3⟩ } }

/-- Reference instance T8A (10_state R38). -/
def PeripheralSpec.t8aReference : PeripheralSpec :=
  { name := "T8A", width := .w8, dividers := PeripheralSpec.canonicalDividers, steps := PeripheralSpec.canonicalSteps,
    layout := Layout.reference, pins := { pinA := some ⟨0, 0⟩, pinB := some ⟨1, 1⟩ } }

/-- The irregular 8-bit variant with a given step and divider sequence (10_state R38, R39: `T8B_S` and `T8B_D` are
arguments). -/
def PeripheralSpec.t8bWith (steps dividers : List Nat) : PeripheralSpec :=
  { name := "T8B", width := .w8, dividers := dividers, steps := steps,
    layout := Layout.reference, pins := { pinA := some ⟨4, 4⟩, pinB := some ⟨5, 5⟩ } }

/-- T8B as far as the source fixes it: 8 bits wide, step factors that alternate between 4 and 8 after the first, dividers
that ascend; everything else is an open value (10_state R39). DEDUCED, log 3, safe. -/
def PeripheralSpec.t8bReference : PeripheralSpec :=
  PeripheralSpec.t8bWith
    ((Config.t8bFirstDivider + 1) :: PeripheralSpec.alternatingSteps Config.t8bEightFirst Config.t8bExtraSteps.val)
    (PeripheralSpec.risingDividers Config.t8bGap (Config.t8bFirstDivider + 1) Config.t8bExtraSteps.val)

/-- The reference configuration (10_state R38): `F_CLK = 16,000,000`, `TPS = 10^9`, `GPIO_W = 8`. DESIGN CHOICE of the spec
(92 D2), taken for the state after reset; log 2, unsafe if read as a real part. -/
def Config.reference : Config :=
  { fClk := 16000000, tps := 1000000000, gpioW := 8,
    t16 := PeripheralSpec.t16Reference, t8a := PeripheralSpec.t8aReference, t8b := PeripheralSpec.t8bReference }

end Sys2Proof
end

