-- ==== Sys2Proof/Syntax.lean ====
section
/-! DEFINITION. The request record as it stands on the request port (30_encoding R90) and the two operations a request can
ask for (30_encoding R99, R102): one constructor for each row of the opcode table. -/

namespace Sys2Proof

/-- A request: one record of three words, presented together and read once at acceptance (30_encoding R90). -/
structure Request where
  ctrl : CtrlWord
  period : DurationWord
  on : DurationWord
deriving DecidableEq, Repr

/-- The operations of the TCE, which take the place of instructions (00_scope R2; 30_encoding R99, R102). Durations are
signed tick counts (30_encoding R92); the fields an operation ignores (30_encoding R105) are no operands of it. -/
inductive Instr where
  /-- CFG.CTC: configure for clear-on-compare-match counting (41_ctc R140). -/
  | cfgCtc (period : Int) (ie : Bool)
  /-- CFG.PWM: configure for dual-slope PWM (42_pwm R160). -/
  | cfgPwm (on period : Int) (pin : Option PinId) (ieA ieB : Bool)
deriving DecidableEq, Repr

end Sys2Proof
end

