-- ==== Sys2Proof/WellFormed.lean ====
section
/-! DEFINITION. The checks on syntax and on configuration data: which operations can be put into a request (a duration is a
64-bit signed count, 30_encoding R92) and which PeripheralSpecs the TCE is defined for (10_state R32). -/

namespace Sys2Proof

/-- A tick count fits a duration word: `-2^63 .. 2^63 - 1` (30_encoding R92). -/
abbrev DurationFits (t : Int) : Prop := -2 ^ 63 ≤ t ∧ t < 2 ^ 63

/-- The operation can be written as a request: each of its durations fits its word (30_encoding R92). -/
def Instr.wf : Instr → Bool
  | .cfgCtc period _ => decide (DurationFits period)
  | .cfgPwm on period _ _ _ => decide (DurationFits on) && decide (DurationFits period)

/-- The sequence ascends strictly (10_state R32 item 3). -/
def ascending : List Nat → Bool
  | [] => true
  | [_] => true
  | a :: b :: rest => decide (a < b) && ascending (b :: rest)

/-- 10_state R32 item 2: `1 <= n <= 7`, `n` the common length of `D` and `S`. -/
abbrev PeripheralSpec.LengthOk (p : PeripheralSpec) : Prop :=
  p.dividers.length = p.steps.length ∧ 1 ≤ p.dividers.length ∧ p.dividers.length ≤ 7

/-- 10_state R32 item 3: every `D[i] >= 1` and `D[i] < D[i+1]`. -/
abbrev PeripheralSpec.DividersOk (p : PeripheralSpec) : Prop :=
  (∀ d ∈ p.dividers, 1 ≤ d) ∧ ascending p.dividers = true

/-- 10_state R32 item 4: every `S[i] >= 1`, and `S[0] = D[0]`. -/
abbrev PeripheralSpec.StepsOk (p : PeripheralSpec) : Prop :=
  (∀ f ∈ p.steps, 1 ≤ f) ∧ p.steps.head? = p.dividers.head?

/-- 10_state R32 item 5: the two mode bits and the two connect bits are four different positions of MODE, the two enables
two different positions of IEN. -/
abbrev Layout.Ok (l : Layout) : Prop :=
  l.modePos.val ≤ 6 ∧
  l.ocAPos.val ≠ l.ocBPos.val ∧
  l.ocAPos.val ≠ l.modePos.val ∧ l.ocAPos.val ≠ l.modePos.val + 1 ∧
  l.ocBPos.val ≠ l.modePos.val ∧ l.ocBPos.val ≠ l.modePos.val + 1 ∧
  l.ienAPos.val ≠ l.ienBPos.val

/-- A pin, where there is one, has its direction bit in `0 .. GPIO_W-1` (10_state R31). -/
def Pin.fits (gpioW : Nat) : Option Pin → Bool
  | none => true
  | some q => decide (q.gpioBit < gpioW)

/-- 10_state R32 item 6: if both pins are present their `id`s differ and their `gpio_bit`s differ. -/
def PinMap.distinct (m : PinMap) : Bool :=
  match m.pinA, m.pinB with
  | some a, some b => decide (a.id ≠ b.id) && decide (a.gpioBit ≠ b.gpioBit)
  | _, _ => true

/-- The pins of a spec are as 10_state R31 and R32 item 6 ask. -/
abbrev PinMap.Ok (gpioW : Nat) (m : PinMap) : Prop :=
  Pin.fits gpioW m.pinA = true ∧ Pin.fits gpioW m.pinB = true ∧ m.distinct = true

/-- A PeripheralSpec is well-formed (10_state R32; item 1 holds by the type `Width`). -/
abbrev PeripheralSpec.WellFormed (gpioW : Nat) (p : PeripheralSpec) : Prop :=
  p.LengthOk ∧ p.DividersOk ∧ p.StepsOk ∧ p.layout.Ok ∧ p.pins.Ok gpioW

/-- One instance can be instantiated: `F_CLK` and `TPS` are positive (00_scope R9, R12) and its spec is well-formed
(10_state R32). -/
abbrev Config.OkFor (c : Config) (i : InstId) : Prop :=
  1 ≤ c.fClk ∧ 1 ≤ c.tps ∧ (c.spec i).WellFormed c.gpioW

/-- Every instance of the system can be instantiated. -/
abbrev Config.WellFormed (c : Config) : Prop := ∀ i : InstId, c.OkFor i

end Sys2Proof
end

