-- ==== Sys2Proof/Decode.lean ====
section
/-! DEFINITION. Decoding of a request record into an operation, total on every record (30_encoding R99, R102, R104), and the
encoder written from the same tables (30_encoding R91, R107). -/

namespace Sys2Proof

/-- Why a record is no operation. -/
inductive DecodeError where
  /-- `CTRL[7:4]` is not all zero (30_encoding R104); the instance answers it with status 5. -/
  | reservedBits
deriving DecidableEq, Repr

/-- `sint(v) = v[62:0] - 2^63 * v[63]` (00_scope R13). -/
def sint (v : DurationWord) : Int :=
  ((v.extractLsb' 0 63).toNat : Int) - 2 ^ 63 * ((v.extractLsb' 63 1).toNat : Int)

/-! ### The fields of `CTRL` (30_encoding R91) -/

/-- `CTRL[0]`, MODE: 0 = CTC, 1 = PWM. -/
def ctrlMode (c : CtrlWord) : Bool := c.getLsbD 0
/-- `CTRL[1]`, IEA. -/
def ctrlIea (c : CtrlWord) : Bool := c.getLsbD 1
/-- `CTRL[2]`, IEB. -/
def ctrlIeb (c : CtrlWord) : Bool := c.getLsbD 2
/-- `CTRL[3]`, PINP: an output pin is named. -/
def ctrlPinp (c : CtrlWord) : Bool := c.getLsbD 3
/-- `CTRL[7:4]`, ZERO, reserved. -/
def ctrlZero (c : CtrlWord) : BitVec 4 := c.extractLsb' 4 4
/-- `CTRL[15:8]`, PIN. -/
def ctrlPin (c : CtrlWord) : PinId := c.extractLsb' 8 8

/-- `DECODE` (30_encoding R102). -/
def decode (r : Request) : Except DecodeError Instr :=
  if ctrlZero r.ctrl ≠ 0 then .error .reservedBits
  else if ctrlMode r.ctrl = false then .ok (.cfgCtc (sint r.period) (ctrlIea r.ctrl))
  else .ok (.cfgPwm (sint r.on) (sint r.period) (if ctrlPinp r.ctrl = true then some (ctrlPin r.ctrl) else none)
    (ctrlIea r.ctrl) (ctrlIeb r.ctrl))

/-! ### The operation map (30_encoding R99) -/

/-- One row of the opcode table: `CTRL & mask = value` (30_encoding R99). -/
structure OpcodeRow where
  mnemonic : String
  value : CtrlWord
  mask : CtrlWord
deriving DecidableEq, Repr

/-- The row CFG.CTC of the operation map. -/
def ctcRow : OpcodeRow := ⟨"CFG.CTC", 0x0000, 0x00F1⟩
/-- The row CFG.PWM of the operation map. -/
def pwmRow : OpcodeRow := ⟨"CFG.PWM", 0x0001, 0x00F1⟩

/-- A `CTRL` word matches a row. -/
def OpcodeRow.matchesCtrl (row : OpcodeRow) (c : CtrlWord) : Bool := decide (c &&& row.mask = row.value)

/-! ### Encoding -/

/-- One bit of `CTRL`, set or not. -/
def ctrlBit (b : Bool) (k : Nat) : CtrlWord := if b then 1#16 <<< k else 0#16

/-- `CTRL` put together from its fields, each at its place, `ZERO` always 0; no pin is `PINP = 0`, `PIN = 0` (30_encoding R91,
R107). -/
def encodeCtrl (mode ieA ieB : Bool) (pin : Option PinId) : CtrlWord :=
  ctrlBit mode 0 ||| ctrlBit ieA 1 ||| ctrlBit ieB 2 ||| ctrlBit pin.isSome 3 ||| ((pin.getD 0).setWidth 16 <<< 8)

/-- The request an operation is written as; in CFG.CTC `IEB = PINP = PIN = 0` and `ON = 0` (30_encoding R107). -/
def encode : Instr → Request
  | .cfgCtc period ie => ⟨encodeCtrl false ie false none, BitVec.ofInt 64 period, 0⟩
  | .cfgPwm on period pin ieA ieB => ⟨encodeCtrl true ieA ieB pin, BitVec.ofInt 64 period, BitVec.ofInt 64 on⟩

/-! ### A request as one number -/

/-- The record whose bits are `w`: `CTRL` the lowest 16, then `PERIOD`, then `ON`, the order of 30_encoding R90
(DESIGN CHOICE, log 17: the spec gives the three words no place in one number). -/
def Request.ofBits (w : Nat) : Request :=
  ⟨BitVec.ofNat 16 w, BitVec.ofNat 64 (w >>> 16), BitVec.ofNat 64 (w >>> 80)⟩

/-- The bits of a record as one number, the inverse of `Request.ofBits` (log 17). -/
def Request.toBits (r : Request) : Nat :=
  r.ctrl.toNat + r.period.toNat <<< 16 + r.on.toNat <<< 80

/-- What the decoder reads from a record whose bits are `w`, bits from `nbits` on being 0. -/
def decodeTableWord (nbits w : Nat) : Option Instr :=
  (decode (Request.ofBits (w % 2 ^ nbits))).toOption

end Sys2Proof
end

