-- ==== Sys2Proof/Machine/State.lean ====
section
/-! DEFINITION. The state of a system of TCE instances as plain data (10_state R30 to R58), the transfers, responses and
conditions it is made of, the events of its surroundings, the reasons a step can stop, and the state after reset
(10_state R54, 70_reset R240, R241). -/

namespace Sys2Proof.Machine

/-- The seven registers of a peripheral's block, ids 0 to 6 (10_state R42). Ids 7 and above do not exist (20_memory R71). -/
inductive RegId where
  | ien
  | mode
  | top
  | cmpA
  | cmpB
  | div
  | cnt
deriving DecidableEq, Repr

/-- The register block of one peripheral (10_state R42): IEN, MODE, DIV as words of bit fields, the others as the unsigned
integers they hold, below `2^W` by the machine's invariant (log 21). -/
structure RegBlock where
  ien : Reg8
  mode : Reg8
  top : Nat
  cmpA : Nat
  cmpB : Nat
  div : Reg8
  cnt : Nat
deriving DecidableEq, Repr

/-- The two output-compare channels (10_state R37, R47). -/
inductive Channel where
  | a
  | b
deriving DecidableEq, Repr

/-- The counting modes the TCE programs (10_state R44). -/
inductive CountMode where
  | ctc
  | pwm
deriving DecidableEq, Repr

/-- The operand `flags` of PACK (43_packer R190). -/
structure PackFlags where
  ieA : Bool
  ieB : Bool
  ocA : Bool
  ocB : Bool
deriving DecidableEq, Repr

/-- One transfer on a port of an instance: `RegWrite(id, v)` (00_scope R14, 20_memory R70) or `DirSet(b)` (20_memory R74). -/
inductive Transfer where
  | regWrite (id : RegId) (v : Nat)
  | dirSet (bit : Nat)
deriving DecidableEq, Repr

/-- The status of a response (30_encoding R98). -/
inductive Status where
  | ok
  | invalidDuration
  | rangeExceeded
  | dutyExceedsPeriod
  | invalidOutputPin
  | badRequest
deriving DecidableEq, Repr

/-- The response record (30_encoding R96). -/
structure Response where
  status : Status
  divIndex : Nat
  top : Nat
  onValid : Bool
  on : Nat
deriving DecidableEq, Repr

/-- `cfg` of 30_encoding R103, the source's CounterConfig less its write list. -/
structure CounterConfig where
  dividerIndex : Nat
  topValue : Nat
  onValue : Option Nat
deriving DecidableEq, Repr

/-- What a configurator returns: `Error(status)` or `Done(cfg, writes)` (30_encoding R103). -/
inductive OpResult where
  | error (status : Status)
  | done (cfg : CounterConfig) (writes : List Transfer)
deriving DecidableEq, Repr

/-- The condition of an instance (10_state R50). `busy w rest rsp` is `Busy(w :: rest, rsp)`: the list of transfers still to
make is not empty, by this form. -/
inductive Condition where
  | idle
  | busy (next : Transfer) (rest : List Transfer) (rsp : Response)
deriving DecidableEq, Repr

/-- One instance with its peripheral's registers, and the requests the host holds on its request port, oldest first
(10_state R30, R51; the queue is the host's, DESIGN CHOICE, log 8). -/
structure Inst where
  regs : RegBlock
  cond : Condition
  waiting : List Request
deriving DecidableEq, Repr

/-- Initial contents of every register and of `GPIO_DIR`, which the spec leaves to an argument (10_state R54, 70_reset R241). -/
structure Contents where
  t16 : RegBlock
  t8a : RegBlock
  t8b : RegBlock
  gpioDir : Nat
deriving DecidableEq, Repr

/-- What the next step is (00_scope R20): an instance's turn, or an action of the outside. -/
inductive Event where
  /-- the host presents a request to an instance (30_encoding R90) -/
  | present (i : InstId) (r : Request)
  /-- an instance takes its step, `accept` or `transfer` (10_state R51) -/
  | turn (i : InstId)
  /-- application code or a handler writes a register of a block (00_scope R20, 10_state R55) -/
  | outsideWrite (i : InstId) (id : RegId) (v : Nat)
  /-- application code or a handler writes `GPIO_DIR` as a whole word (10_state R49, 70_reset R252) -/
  | outsideDir (v : Nat)
  /-- the power returns, or reset is released, with these contents in the registers (70_reset R240 to R242; log 16) -/
  | powerUp (c : Contents)
deriving DecidableEq, Repr

/-- The state of the system. What the spec gives the machine: `t16`, `t8a`, `t8b` (registers and condition), `gpioDir`.
Wires and inputs: `waiting` in each instance, `rsp` (10_state R53, log 14), `schedule` (log 7). Configuration, never changed:
`cfg` (log 1). The model's own: `active`, whose turn the step is, and `draws`, how many free values of CNT were taken (log 9). -/
structure State where
  cfg : Config
  t16 : Inst
  t8a : Inst
  t8b : Inst
  gpioDir : Nat
  rsp : Option (InstId × Response)
  active : InstId
  draws : Nat
  schedule : List Event
deriving DecidableEq, Repr

/-- The faults of the machine: none. "The TCE never traps and never hangs" (00_scope R22); an error of a request is a status
in a response (60_exceptions R213). -/
inductive Fault where
deriving DecidableEq, Repr

/-- Where the spec gives no meaning. No state that meets the machine's invariant reaches one of the last three. -/
inductive Refusal where
  /-- An operation without a meaning, by the name of its row; raised by an arm of `exec` only. Safe: the model stops. -/
  | notModelled (mnemonic : String)
  /-- An instance whose PeripheralSpec is not well-formed takes a request; "a model refuses to instantiate any other"
  (10_state R32, 93 U12). Raised by `accept`. Safe: the model stops. Log 12. -/
  | illFormedSpec
  /-- A transfer outside its precondition (20_memory R70, R74; 43_packer R192, 93 U11). Raised by `makeTransfer`. Safe: the
  model stops, and no write list of an operation leads here. Log 12. -/
  | transferOutsideDomain
  /-- DIV would be written with a write of MODE still pending, an order without a meaning (93 U3). Raised by `makeTransfer`.
  Safe: the model stops, and no write list of an operation leads here. Log 12. -/
  | dividerBeforeMode
deriving DecidableEq, Repr

/-- The contents of an instance that comes out of reset: `Idle`, no pending transfer, no request presented (70_reset R240). -/
def Inst.ofRegs (r : RegBlock) : Inst := { regs := r, cond := .idle, waiting := [] }

/-- The state out of reset with given parameters and given initial contents, the argument the spec asks for (10_state R54,
70_reset R240, R241). -/
def State.ofContents (cfg : Config) (c : Contents) : State :=
  { cfg := cfg, t16 := Inst.ofRegs c.t16, t8a := Inst.ofRegs c.t8a, t8b := Inst.ofRegs c.t8b, gpioDir := c.gpioDir,
    rsp := none, active := .t16, draws := 0, schedule := [] }

/-- A block with 0 in every register (DESIGN CHOICE, log 5, unsafe: the spec gives no reset value). -/
def RegBlock.zero : RegBlock := { ien := 0, mode := 0, top := 0, cmpA := 0, cmpB := 0, div := 0, cnt := 0 }

/-- The contents the model names for the state after reset: 0 everywhere (DESIGN CHOICE, logs 5 and 6, unsafe). -/
def Contents.zero : Contents := { t16 := RegBlock.zero, t8a := RegBlock.zero, t8b := RegBlock.zero, gpioDir := 0 }

/-- The machine right after reset: every instance `Idle` (10_state R54), the reference configuration (10_state R38, log 2),
registers at the values the log names (logs 5, 6). -/
def State.reset : State := State.ofContents Config.reference Contents.zero

end Sys2Proof.Machine
end

