-- ==== Sys2Proof/Machine/Operands.lean ====
section
/-! DEFINITION. The arithmetic units of the TCE: conversion of a duration to cycles, the divider selector, the threshold
scaler (40_selector_and_scaler R120 to R131), and the validation of an output pin (42_pwm R164). Every count is an exact
natural number: nothing wraps (R121). -/

namespace Sys2Proof.Machine

/-- `D[n-1]`, the source's `max_divider` (40 R128). -/
def maxDivider (p : PeripheralSpec) : Nat := p.dividers.getLast?.getD 0

/-- `P[i] = S[0] * S[1] * ... * S[i]` (10_state R35). -/
def cumulative (p : PeripheralSpec) (i : Nat) : Nat := (p.steps.take (i + 1)).prod

/-- The spec is consistent: `P[i] = D[i]` for every `i` (10_state R35). -/
def Consistent (p : PeripheralSpec) : Prop := ∀ i, i < p.dividers.length → p.dividers[i]? = some (cumulative p i)

/-- `CYCLES(t) = floor((t * F_CLK) / TPS)`, multiplied first, exact; it does not decrease in `t` (40 R120, R121, R131). -/
def cycles (c : Config) (t : Nat) : Nat := t * c.fClk / c.tps

/-- The scan of `DIVSEL` over the step factors left, at index `i` with running count `run` (40 R124). -/
def selectFrom (registerMax : Nat) : List Nat → Nat → Nat → Option (Nat × Nat)
  | [], _, _ => none
  | f :: rest, i, run => if run / f ≤ registerMax then some (i, run / f) else selectFrom registerMax rest (i + 1) (run / f)

/-- `DIVSEL(raw, spec)`: the divider index and the scaled count, or `none` for `Err(RangeExceeded)` (40 R123, R124). -/
def divsel (raw : Nat) (p : PeripheralSpec) : Option (Nat × Nat) := selectFrom p.registerMax p.steps 0 raw

/-- `RANGE_OK(raw, spec)`, the up-front range test (40 R128). -/
def rangeOk (raw : Nat) (p : PeripheralSpec) : Bool := decide (raw ≤ p.registerMax * maxDivider p)

/-- `REDUCE(raw, spec, idx)`: the step factors `S[0] .. S[idx]` applied in order; it does not decrease in `raw` (40 R129,
R131). -/
def reduce (raw : Nat) (p : PeripheralSpec) (idx : Nat) : Nat := (p.steps.take (idx + 1)).foldl (· / ·) raw

/-- `HALVE(v) = v >> 1`; it does not decrease (40 R130, R131). -/
def halve (v : Nat) : Nat := v >>> 1

/-- A pin, where there is one, is the one named: its direction bit. -/
def pinNamed (id : PinId) : Option Pin → Option Nat
  | none => none
  | some q => if q.id = id then some q.gpioBit else none

/-- `CHANNEL_OF(spec, pin)`: the output-compare channel of the named pin and its direction bit, or `none` when no pin is
named or the name is not legal (42_pwm R164). -/
def channelOf (p : PeripheralSpec) : Option PinId → Option (Channel × Nat)
  | none => none
  | some id =>
    match pinNamed id p.pins.pinA with
    | some b => some (.a, b)
    | none =>
      match pinNamed id p.pins.pinB with
      | some b => some (.b, b)
      | none => none

end Sys2Proof.Machine
end

