-- ==== Sys2Proof/Machine/Flags.lean ====
section
/-! DEFINITION. The TCE has no flags or condition codes (10_state R52). This file holds what takes their place: the numbers of
the status codes (30_encoding R98), the values of the three control registers put together from their flag bits by the
packer (43_packer R193 to R195), and the fields read back from them (10_state R43 to R45, 43_packer R197). -/

namespace Sys2Proof.Machine

/-- The code of a status on the 3-bit field `STATUS` (30_encoding R98). -/
def statusCode : Status → BitVec 3
  | .ok => 0
  | .invalidDuration => 1
  | .rangeExceeded => 2
  | .dutyExceedsPeriod => 3
  | .invalidOutputPin => 4
  | .badRequest => 5

/-- `b(true) = 1`, `b(false) = 0`, as a control-register value (43_packer R194). -/
def flagBit (b : Bool) : Reg8 := if b then 1 else 0

/-- `wgm(PWM) = 1`, `wgm(CTC) = 2` (43_packer R195, 10_state R44). -/
def wgmCode : CountMode → Reg8
  | .pwm => 1
  | .ctc => 2

/-- `IEN_VALUE(layout, flags)` (43_packer R194). -/
def ienValue (l : Layout) (f : PackFlags) : Reg8 :=
  (flagBit f.ieA <<< l.ienAPos.val) ||| (flagBit f.ieB <<< l.ienBPos.val)

/-- `MODE_VALUE(layout, mode, flags)` (43_packer R195). -/
def modeValue (l : Layout) (m : CountMode) (f : PackFlags) : Reg8 :=
  (wgmCode m <<< l.modePos.val) ||| (flagBit f.ocA <<< l.ocAPos.val) ||| (flagBit f.ocB <<< l.ocBPos.val)

/-- `DIV_VALUE(idx) = idx + 1`, the divider code (43_packer R193, 10_state R45). -/
def divValue (idx : Nat) : Nat := idx + 1

/-- The field IEA of IEN (10_state R43). -/
def ienIea (l : Layout) (v : Reg8) : Bool := v.getLsbD l.ienAPos.val
/-- The field IEB of IEN (10_state R43). -/
def ienIeb (l : Layout) (v : Reg8) : Bool := v.getLsbD l.ienBPos.val
/-- The field WGM of MODE, `v[mode_pos+1 : mode_pos]` (10_state R44). -/
def modeWgm (l : Layout) (v : Reg8) : BitVec 2 := v.extractLsb' l.modePos.val 2
/-- The field OCA of MODE (10_state R44). -/
def modeOca (l : Layout) (v : Reg8) : Bool := v.getLsbD l.ocAPos.val
/-- The field OCB of MODE (10_state R44). -/
def modeOcb (l : Layout) (v : Reg8) : Bool := v.getLsbD l.ocBPos.val
/-- The field CS of DIV, `DIV[2:0]`, the divider code (10_state R45). -/
def divCs (v : Reg8) : BitVec 3 := v.extractLsb' 0 3

/-- The counter is clocked: the divider code is not 0 (10_state R45, R48). -/
def clocked (r : RegBlock) : Bool := decide (divCs r.div ≠ 0)

end Sys2Proof.Machine
end

