-- ==== Sys2Proof/Machine/Ops.lean ====
section
/-! DEFINITION. The shared operations: access to an instance and to a register, the two transfers (20_memory R70, R74), the
packer that lists an operation's transfers (43_packer R190), the acceptance of a request with its two ends, error
(60_exceptions R213) and start of the write list, and one step of that list (10_state R51). -/

namespace Sys2Proof.Machine

/-! ### Access to an instance -/

/-- The instance `i`. -/
def State.inst (s : State) : InstId → Inst
  | .t16 => s.t16
  | .t8a => s.t8a
  | .t8b => s.t8b

/-- The state with `x` for the instance `i`. -/
def State.setInst (s : State) (i : InstId) (x : Inst) : State :=
  match i with
  | .t16 => { s with t16 := x }
  | .t8a => { s with t8a := x }
  | .t8b => { s with t8b := x }

/-- The PeripheralSpec of the instance `i`. -/
def State.spec (s : State) (i : InstId) : PeripheralSpec := s.cfg.spec i

/-- The state with `r` for the register block of the instance `i`. -/
def State.setRegs (s : State) (i : InstId) (r : RegBlock) : State := s.setInst i { s.inst i with regs := r }

/-- The state with `c` for the condition of the instance `i`. -/
def State.setCond (s : State) (i : InstId) (c : Condition) : State := s.setInst i { s.inst i with cond := c }

/-- The state with `q` for the requests the host holds at the instance `i`. -/
def State.setWaiting (s : State) (i : InstId) (q : List Request) : State := s.setInst i { s.inst i with waiting := q }

/-- The state with `v` in `GPIO_DIR`. -/
def State.setGpioDir (s : State) (v : Nat) : State := { s with gpioDir := v }

/-- The state in which the turn is the instance `i`'s. -/
def State.setActive (s : State) (i : InstId) : State := { s with active := i }

/-- The state with `l` for the events to come. -/
def State.setSchedule (s : State) (l : List Event) : State := { s with schedule := l }

/-! ### Registers -/

/-- The number of a register id (10_state R42). -/
def RegId.number : RegId → Nat
  | .ien => 0
  | .mode => 1
  | .top => 2
  | .cmpA => 3
  | .cmpB => 4
  | .div => 5
  | .cnt => 6

/-- The register of an id, if there is one: ids 7 and above do not exist (20_memory R71). -/
def RegId.ofNumber : Nat → Option RegId
  | 0 => some .ien
  | 1 => some .mode
  | 2 => some .top
  | 3 => some .cmpA
  | 4 => some .cmpB
  | 5 => some .div
  | 6 => some .cnt
  | _ => none

/-- `width(id)` in bits (10_state R42): 8 for the control registers, `W` for the others. -/
def RegId.width (p : PeripheralSpec) : RegId → Nat
  | .ien => 8
  | .mode => 8
  | .div => 8
  | .top => p.width.bits
  | .cmpA => p.width.bits
  | .cmpB => p.width.bits
  | .cnt => p.width.bits

/-- The unsigned integer a register holds. The TCE reads no register (20_memory R73): this is an observer's read. -/
def RegBlock.read (r : RegBlock) : RegId → Nat
  | .ien => r.ien.toNat
  | .mode => r.mode.toNat
  | .top => r.top
  | .cmpA => r.cmpA
  | .cmpB => r.cmpB
  | .div => r.div.toNat
  | .cnt => r.cnt

/-- A whole-register write: the register takes the value, no other changes (20_memory R70). -/
def RegBlock.write (r : RegBlock) (id : RegId) (v : Nat) : RegBlock :=
  match id with
  | .ien => { r with ien := BitVec.ofNat 8 v }
  | .mode => { r with mode := BitVec.ofNat 8 v }
  | .top => { r with top := v }
  | .cmpA => { r with cmpA := v }
  | .cmpB => { r with cmpB := v }
  | .div => { r with div := BitVec.ofNat 8 v }
  | .cnt => { r with cnt := v }

/-- A block whose registers hold `W` bits each (contents given from outside, log 13). -/
def RegBlock.clip (p : PeripheralSpec) (r : RegBlock) : RegBlock :=
  { r with top := r.top % 2 ^ p.width.bits, cmpA := r.cmpA % 2 ^ p.width.bits,
           cmpB := r.cmpB % 2 ^ p.width.bits, cnt := r.cnt % 2 ^ p.width.bits }

/-- The output pin connected in `GPIO_DIR`: bit `b` is 1 = output (10_state R49). -/
def State.isOutput (s : State) (b : Nat) : Bool := s.gpioDir.testBit b

/-! ### Transfers -/

/-- The precondition of a transfer: a register value below `2^width(id)` (20_memory R70), a direction bit below `GPIO_W`
(20_memory R74). -/
def transferOk (c : Config) (p : PeripheralSpec) : Transfer → Bool
  | .regWrite id v => decide (v < 2 ^ id.width p)
  | .dirSet b => decide (b < c.gpioW)

/-- The effect of one transfer of the instance `i` (20_memory R70, R74): the register named takes the value; or bit `b` of
`GPIO_DIR` becomes 1 and its other bits stay. Atomic (20_memory R74, R78; log 15). -/
def State.perform (s : State) (i : InstId) : Transfer → State
  | .regWrite id v => s.setRegs i ((s.inst i).regs.write id v)
  | .dirSet b => s.setGpioDir (s.gpioDir ||| 1 <<< b)

/-- A list of transfers of the instance `i` made one after the other, in the list's order (10_state R51, 20_memory R76). -/
def State.performAll (s : State) (i : InstId) (ws : List Transfer) : State := ws.foldl (fun t w => t.perform i w) s

/-- The transfer writes the register `id`. -/
def Transfer.writesReg (id : RegId) : Transfer → Bool
  | .regWrite id' _ => decide (id' = id)
  | .dirSet _ => false

/-- `PACK(spec, mode, idx, flags, top, on, dir)` (43_packer R190): the write list in its fixed order. -/
def pack (l : Layout) (m : CountMode) (idx : Nat) (f : PackFlags) (top : Nat) (on : Option (Channel × Nat))
    (dir : Option Nat) : List Transfer :=
  (match dir with
    | some b => [.dirSet b]
    | none => [])
  ++ [.regWrite .ien (ienValue l f).toNat]
  ++ [.regWrite .mode (modeValue l m f).toNat]
  ++ [.regWrite .top top]
  ++ (match on with
    | some (.a, v) => [.regWrite .cmpA v]
    | some (.b, v) => [.regWrite .cmpB v]
    | none => [])
  ++ [.regWrite .div (divValue idx)]
  ++ (match m with
    | .ctc => [.regWrite .cnt 0]
    | .pwm => [])

/-! ### Responses and the two ends of an acceptance -/

/-- The response of a success (30_encoding R96). -/
def responseOf (c : CounterConfig) : Response :=
  { status := .ok, divIndex := c.dividerIndex, top := c.topValue, onValid := c.onValue.isSome, on := c.onValue.getD 0 }

/-- The response of an error: the status and zeros (30_encoding R96, 60_exceptions R218). -/
def errorResponse (st : Status) : Response := { status := st, divIndex := 0, top := 0, onValid := false, on := 0 }

/-- The instance `i` drives its response wire in this step (10_state R51, R53; log 14). -/
def State.respond (s : State) (i : InstId) (r : Response) : State := { s with rsp := some (i, r) }

/-- `raise E` (00_scope R14, 60_exceptions R213), which takes the place of an exception: a response with the status and zeros,
no transfer, the instance stays `Idle`; there is no handler to go to. -/
def raiseError (st : Status) (s : State) : State := s.respond s.active (errorResponse st)

/-- What is left of a write list after a transfer: `Busy(rest, rsp)`, or the response and `Idle` (10_state R51). -/
def continueWith (i : InstId) (left : List Transfer) (rsp : Response) (s : State) : State :=
  match left with
  | [] => (s.setCond i .idle).respond i rsp
  | w :: rest => s.setCond i (.busy w rest rsp)

/-- What an accepted request makes of the state: an error is answered, a success starts its write list (10_state R51). -/
def enter (out : OpResult) (s : State) : State :=
  match out with
  | .error st => raiseError st s
  | .done c writes => continueWith s.active writes (responseOf c) s

/-- The `accept` step of the instance whose turn it is, with what EXEC gave for the request (10_state R51). A request that
meets a `Busy` instance is held: nothing happens (10_state R51, 70_reset R253; log 11). -/
def accept (out : OpResult) (s : State) : Host.Outcome State Fault Refusal :=
  match (s.inst s.active).cond with
  | .busy _ _ _ => .next s
  | .idle =>
    if s.cfg.OkFor s.active then .next (enter out s) else .refused .illFormedSpec

/-- The `transfer` step of the instance `i` (10_state R51): the transfer is made if it meets its precondition, and not out of
the one order that has a meaning (93 U3). -/
def makeTransfer (i : InstId) (w : Transfer) (rest : List Transfer) (rsp : Response) (s : State) :
    Host.Outcome State Fault Refusal :=
  if transferOk s.cfg (s.spec i) w = false then .refused .transferOutsideDomain
  else if w.writesReg .div && rest.any (Transfer.writesReg .mode) then .refused .dividerBeforeMode
  else .next (continueWith i rest rsp (s.perform i w))

end Sys2Proof.Machine
end

