-- ==== Sys2Proof/Machine/Ctc.lean ====
section
/-! DEFINITION. CFG.CTC, the periodic counter configurator (41_ctc_configurator R140 to R149). -/

namespace Sys2Proof.Machine

/-- The flags CFG.CTC packs: one interrupt enable, channel A's; no output connected (41_ctc R140, R143, R144). -/
def ctcFlags (ie : Bool) : PackFlags := { ieA := ie, ieB := false, ocA := false, ocB := false }

/-- `CFG_CTC(spec, F_CLK, c)` (41_ctc R140), its checks in the order of R141. -/
def cfgCtc (c : Config) (p : PeripheralSpec) (period : Int) (ie : Bool) : OpResult :=
  if period < 0 then .error .invalidDuration
  else if rangeOk (cycles c period.toNat) p = false then .error .rangeExceeded
  else
    match divsel (cycles c period.toNat) p with
    | none => .error .rangeExceeded
    | some (idx, scaled) =>
      .done { dividerIndex := idx, topValue := scaled, onValue := none }
        (pack p.layout .ctc idx (ctcFlags ie) scaled none none)

/-- CFG.CTC presented to the instance whose turn it is (41_ctc R140, 10_state R51). -/
def execCfgCtc (period : Int) (ie : Bool) (s : State) : Host.Outcome State Fault Refusal :=
  accept (cfgCtc s.cfg (s.spec s.active) period ie) s

end Sys2Proof.Machine
end

