-- ==== Sys2Proof/Machine/Pwm.lean ====
section
/-! DEFINITION. CFG.PWM, the dual-slope PWM configurator (42_pwm_configurator R160 to R173). -/

namespace Sys2Proof.Machine

/-- The flags CFG.PWM packs: both interrupt enables as requested, the connect bit of the pin's channel only (42_pwm R165). -/
def pwmFlags (ieA ieB : Bool) (ch : Channel) : PackFlags :=
  { ieA := ieA, ieB := ieB, ocA := decide (ch = .a), ocB := decide (ch = .b) }

/-- `CFG_PWM(spec, F_CLK, p)` (42_pwm R160), its checks in the order of R161. -/
def cfgPwm (c : Config) (p : PeripheralSpec) (on period : Int) (pin : Option PinId) (ieA ieB : Bool) : OpResult :=
  if on < 0 ∨ period < 0 then .error .invalidDuration
  else if on > period then .error .dutyExceedsPeriod
  else if rangeOk (cycles c period.toNat) p = false then .error .rangeExceeded
  else
    match divsel (cycles c period.toNat) p with
    | none => .error .rangeExceeded
    | some (idx, scaledPeriod) =>
      match channelOf p pin with
      | none => .error .invalidOutputPin
      | some (ch, gpioBit) =>
        .done { dividerIndex := idx, topValue := halve scaledPeriod,
                onValue := some (halve (reduce (cycles c on.toNat) p idx)) }
          (pack p.layout .pwm idx (pwmFlags ieA ieB ch) (halve scaledPeriod)
            (some (ch, halve (reduce (cycles c on.toNat) p idx))) (some gpioBit))

/-- CFG.PWM presented to the instance whose turn it is (42_pwm R160, 10_state R51). -/
def execCfgPwm (on period : Int) (pin : Option PinId) (ieA ieB : Bool) (s : State) : Host.Outcome State Fault Refusal :=
  accept (cfgPwm s.cfg (s.spec s.active) on period pin ieA ieB) s

end Sys2Proof.Machine
end

