-- ==== Sys2Proof/Machine/Dispatch.lean ====
section
/-! DEFINITION. The meaning of every operation, one arm each (30_encoding R103, the match on the decoded request). -/

namespace Sys2Proof.Machine

def exec (i : Instr) (s : State) : Host.Outcome State Fault Refusal :=
  match i with
  | .cfgCtc period ie => Sys2Proof.Machine.execCfgCtc period ie s
  | .cfgPwm on period pin ieA ieB => Sys2Proof.Machine.execCfgPwm on period pin ieA ieB s

end Sys2Proof.Machine
end

