-- ==== Sys2Proof/Machine/Agents.lean ====
section
/-! DEFINITION. What one step of the system is made of (00_scope R20, 10_state R51): the counters' own movement, an instance's
turn, the acts of the host and of other code, and the choice of the next act. -/

namespace Sys2Proof.Machine

/-- `EXEC(spec, F_CLK, req)` (30_encoding R103): the pure function of a request and the parameters. -/
def execRequest (c : Config) (p : PeripheralSpec) (r : Request) : OpResult :=
  match decode r with
  | .error .reservedBits => .error .badRequest
  | .ok (.cfgCtc period ie) => cfgCtc c p period ie
  | .ok (.cfgPwm on period pin ieA ieB) => cfgPwm c p on period pin ieA ieB

/-- The counter of an instance between two steps: if it is clocked it holds any value of its width, else it keeps what it
holds (10_state R45, R48; log 9). -/
def Inst.letCount (p : PeripheralSpec) (free : Nat) (x : Inst) : Inst :=
  if clocked x.regs then { x with regs := { x.regs with cnt := free % 2 ^ p.width.bits } } else x

/-- What stands before the act of every step: each clocked counter has moved, and no response is on the wire any more
(10_state R48, R53; logs 9 and 14). -/
def State.beginStep (s : State) : State :=
  { s with
    t16 := s.t16.letCount s.cfg.t16 (Config.freeCount s.draws .t16)
    t8a := s.t8a.letCount s.cfg.t8a (Config.freeCount s.draws .t8a)
    t8b := s.t8b.letCount s.cfg.t8b (Config.freeCount s.draws .t8b)
    rsp := none
    draws := s.draws + 1 }

/-- The instance `i` reads the oldest request on its port, which leaves the port, and the turn is `i`'s (10_state R51, R53). -/
def State.takeRequest (s : State) (i : InstId) (left : List Request) : State :=
  (s.setWaiting i left).setActive i

/-- A request that decodes to no operation is answered with status 5 (30_encoding R104, 60_exceptions R215). -/
def refuseRequest : DecodeError → State → Host.Outcome State Fault Refusal
  | .reservedBits => accept (.error .badRequest)

/-- The turn of the instance `i` (10_state R51): a transfer if it is `Busy`; else the oldest request presented is accepted; else
nothing. A request that meets a `Busy` instance stays on the port (70_reset R253). -/
def instanceTurn (i : InstId) (s : State) : Host.Outcome State Fault Refusal :=
  match (s.inst i).cond, (s.inst i).waiting with
  | .busy w rest rsp, _ => makeTransfer i w rest rsp (s.setActive i)
  | .idle, [] => .next (s.setActive i)
  | .idle, r :: left =>
    match decode r with
    | .error e => refuseRequest e (s.takeRequest i left)
    | .ok instr => exec instr (s.takeRequest i left)

/-- The host presents a request at the instance `i`, behind those it already holds there (30_encoding R90, log 8). -/
def State.present (s : State) (i : InstId) (r : Request) : State := s.setWaiting i ((s.inst i).waiting ++ [r])

/-- Other code writes the register `id` of the block of the instance `i`; a write carries `width(id)` bits (10_state R55,
log 13). -/
def State.outsideWrite (s : State) (i : InstId) (id : RegId) (v : Nat) : State :=
  s.setRegs i ((s.inst i).regs.write id (v % 2 ^ id.width (s.spec i)))

/-- Other code writes `GPIO_DIR` as a whole word of `GPIO_W` bits (10_state R49, 70_reset R252; log 13). -/
def State.outsideDir (s : State) (v : Nat) : State := s.setGpioDir (v % 2 ^ s.cfg.gpioW)

/-- The power returns: every instance `Idle` with nothing pending or presented, registers and `GPIO_DIR` with the contents
given, which the spec leaves open (70_reset R240 to R242; log 16). -/
def State.powerUp (s : State) (c : Contents) : State :=
  { s with
    t16 := Inst.ofRegs (c.t16.clip s.cfg.t16)
    t8a := Inst.ofRegs (c.t8a.clip s.cfg.t8a)
    t8b := Inst.ofRegs (c.t8b.clip s.cfg.t8b)
    gpioDir := c.gpioDir % 2 ^ s.cfg.gpioW
    rsp := none }

/-- One event. -/
def handleEvent (e : Event) (s : State) : Host.Outcome State Fault Refusal :=
  match e with
  | .present i r => .next (s.present i r)
  | .turn i => instanceTurn i s
  | .outsideWrite i id v => .next (s.outsideWrite i id v)
  | .outsideDir v => .next (s.outsideDir v)
  | .powerUp c => .next (s.powerUp c)

/-- The instance has something to do: a transfer to make or a request to accept. -/
def Inst.ready (x : Inst) : Bool :=
  match x.cond, x.waiting with
  | .idle, [] => false
  | _, _ => true

/-- Whose turn it is when the schedule names no event: the first instance with something to do (DESIGN CHOICE, log 7; the weak
fairness of 70_reset R254). -/
def State.nextReady (s : State) : Option InstId :=
  if s.t16.ready then some .t16 else if s.t8a.ready then some .t8a else if s.t8b.ready then some .t8b else none

/-- The act of a step: the first event of the schedule, or else the turn of an instance with something to do, or else nothing. -/
def actStep (s : State) : Host.Outcome State Fault Refusal :=
  match s.schedule with
  | e :: later => handleEvent e (s.setSchedule later)
  | [] =>
    match s.nextReady with
    | some i => instanceTurn i s
    | none => .next s

/-- The request `r` stands first on the port of the instance T16, which is `Idle`, and the next act is that instance's turn
(log 10). -/
def State.offer (s : State) (r : Request) : State :=
  { s with t16 := { s.t16 with cond := .idle, waiting := r :: s.t16.waiting }, schedule := .turn .t16 :: s.schedule }

end Sys2Proof.Machine
end

