-- ==== Sys2Proof/Machine/Step.lean ====
section
/-! DEFINITION. One step of the system, and the placing of a request so that the next step accepts it. -/

namespace Sys2Proof.Machine

/-- One step (00_scope R20, 20_memory R76): the counters have moved, then one agent acts. -/
def step (s : State) : Host.Outcome State Fault Refusal := actStep s.beginStep

/-- The state in which the very next step accepts the request whose bits are `w` at the instance T16 (log 10). -/
def State.withFetchWord (s : State) (nbits w : Nat) : State := s.offer (Request.ofBits (w % 2 ^ nbits))

end Sys2Proof.Machine
end

