-- ==== Sys2Proof/Machine/Assembler.lean ====
section
/-! DEFINITION. The textual syntax of requests and responses (30_encoding R107, R108): a line of text read into an instance
and an operation (whose request `encode` gives), and the text an operation and a response are written as. The spacing and
what is rejected are the model's reading of the two line patterns of R107 (DESIGN CHOICE, log 20). -/

namespace Sys2Proof.Machine

/-! ### Reading -/

/-- One space or more. -/
def skipSpaces : List Char → List Char
  | ' ' :: rest => skipSpaces rest
  | rest => rest

/-- The given word, letter for letter, and what stands after it. -/
def expectWord : List Char → List Char → Option (List Char)
  | [], rest => some rest
  | _ :: _, [] => none
  | w :: ws, c :: rest => if w = c then expectWord ws rest else none

/-- The value of a decimal digit. -/
def digitValue (c : Char) : Option Nat := if '0' ≤ c ∧ c ≤ '9' then some (c.toNat - '0'.toNat) else none

/-- The digits at the front: the value so far, how many there were, and what stands after them. -/
def readDigits (value count : Nat) : List Char → Nat × Nat × List Char
  | [] => (value, count, [])
  | c :: rest =>
    match digitValue c with
    | some d => readDigits (10 * value + d) (count + 1) rest
    | none => (value, count, c :: rest)

/-- At least one digit. -/
def readNumber (text : List Char) : Option (Nat × Nat × List Char) :=
  match readDigits 0 0 text with
  | (_, 0, _) => none
  | (v, n, rest) => some (v, n, rest)

/-- A duration without its sign: a tick count, or a decimal fraction of seconds followed by `s`, accepted only when it is a
whole number of ticks (30_encoding R107, R108). Seconds with no decimal point (`4s`) are read as a whole number of seconds,
`4 * TPS` ticks: R108 does not say whether they count as "a decimal fraction" (DESIGN CHOICE, log 20, safe). -/
def readMagnitude (tps : Nat) (text : List Char) : Option (Nat × List Char) :=
  match readNumber text with
  | none => none
  | some (v, _, 's' :: rest) => some (v * tps, rest)
  | some (v, _, '.' :: more) =>
    match readNumber more with
    | some (f, n, 's' :: rest) =>
      if (v * 10 ^ n + f) * tps % 10 ^ n = 0 then some ((v * 10 ^ n + f) * tps / 10 ^ n, rest) else none
    | _ => none
  | some (v, _, rest) => some (v, rest)

/-- A duration: "a leading `-` for negative" (30_encoding R107). -/
def readDuration (tps : Nat) : List Char → Option (Int × List Char)
  | '-' :: rest => (readMagnitude tps rest).map fun m => (-(m.1 : Int), m.2)
  | rest => (readMagnitude tps rest).map fun m => ((m.1 : Int), m.2)

/-- `0` or `1`. -/
def readFlag : List Char → Option (Bool × List Char)
  | '0' :: rest => some (false, rest)
  | '1' :: rest => some (true, rest)
  | _ => none

/-- `none`, or an identifier 0..255. -/
def readPin (text : List Char) : Option (Option PinId × List Char) :=
  match expectWord "none".toList text with
  | some rest => some (none, rest)
  | none =>
    match readNumber text with
    | some (v, _, rest) => if v ≤ 255 then some (some (BitVec.ofNat 8 v), rest) else none
    | none => none

/-- A comma, spaces, and the name of the next operand with its `=`. -/
def nextOperand (name : String) (text : List Char) : Option (List Char) :=
  (expectWord [','] text).bind fun rest => expectWord name.toList (skipSpaces rest)

/-- The operands of CFG.CTC (30_encoding R107). -/
def readCtc (tps : Nat) (text : List Char) : Option Instr := do
  let t ← expectWord "period=".toList (skipSpaces text)
  let (period, t) ← readDuration tps t
  let t ← nextOperand "ie=" t
  let (ie, t) ← readFlag t
  if skipSpaces t = [] then some (.cfgCtc period ie) else none

/-- The operands of CFG.PWM (30_encoding R107). -/
def readPwm (tps : Nat) (text : List Char) : Option Instr := do
  let t ← expectWord "on=".toList (skipSpaces text)
  let (on, t) ← readDuration tps t
  let t ← nextOperand "period=" t
  let (period, t) ← readDuration tps t
  let t ← nextOperand "pin=" t
  let (pin, t) ← readPin t
  let t ← nextOperand "iea=" t
  let (ieA, t) ← readFlag t
  let t ← nextOperand "ieb=" t
  let (ieB, t) ← readFlag t
  if skipSpaces t = [] then some (.cfgPwm on period pin ieA ieB) else none

/-- The mnemonic and its operands; an operation that no request can hold is rejected (30_encoding R92). -/
def readOperation (tps : Nat) (text : List Char) : Option Instr :=
  ((match expectWord "CFG.CTC ".toList text with
    | some rest => readCtc tps rest
    | none => (expectWord "CFG.PWM ".toList text).bind (readPwm tps))).filter Instr.wf

/-- The instance a line names first (30_encoding R107), by the names of the configuration. -/
def readInstance (c : Config) (text : List Char) : Option (InstId × List Char) :=
  [InstId.t16, InstId.t8a, InstId.t8b].findSome? fun i =>
    (expectWord ((c.spec i).name.toList ++ [' ']) text).map fun rest => (i, rest)

/-- A request line (30_encoding R107, R108): the instance and the operation. -/
def readLine (c : Config) (line : String) : Option (InstId × Instr) :=
  (readInstance c line.toList).bind fun p => (readOperation c.tps (skipSpaces p.2)).map fun op => (p.1, op)

/-! ### Writing -/

/-- An integer in decimal, with a leading `-` when negative. -/
def writeInt (t : Int) : String := if t < 0 then "-" ++ Nat.repr t.natAbs else Nat.repr t.natAbs

/-- `0` or `1`. -/
def writeFlag (b : Bool) : String := if b then "1" else "0"

/-- `none`, or the identifier. -/
def writePin : Option PinId → String
  | none => "none"
  | some id => Nat.repr id.toNat

/-- The request line of an operation at an instance (30_encoding R107). -/
def writeLine (c : Config) (i : InstId) : Instr → String
  | .cfgCtc period ie =>
    (c.spec i).name ++ " CFG.CTC period=" ++ writeInt period ++ ", ie=" ++ writeFlag ie
  | .cfgPwm on period pin ieA ieB =>
    (c.spec i).name ++ " CFG.PWM on=" ++ writeInt on ++ ", period=" ++ writeInt period ++ ", pin=" ++ writePin pin
      ++ ", iea=" ++ writeFlag ieA ++ ", ieb=" ++ writeFlag ieB

/-- The name of a status (30_encoding R98). -/
def statusName : Status → String
  | .ok => "Ok"
  | .invalidDuration => "InvalidDuration"
  | .rangeExceeded => "RangeExceeded"
  | .dutyExceedsPeriod => "DutyExceedsPeriod"
  | .invalidOutputPin => "InvalidOutputPin"
  | .badRequest => "BadRequest"

/-- The line of a response (30_encoding R107). -/
def writeResponse (r : Response) : String :=
  match r.status with
  | .ok =>
    "-> Ok idx=" ++ Nat.repr r.divIndex ++ " top=" ++ Nat.repr r.top
      ++ (if r.onValid then " on=" ++ Nat.repr r.on else "")
  | st => "-> " ++ statusName st

end Sys2Proof.Machine
end

