-- ==== Sys2Proof/Safety.lean ====
section
/-! DEFINITION. The terms claims are made in: the invariant of the machine (10_state R32, R42, R49, R50), runs of several
steps, and what it is for an instance to be left alone. -/

namespace Sys2Proof.Machine

/-- Every register holds an unsigned integer of its width (10_state R42). -/
def RegBlock.InRange (p : PeripheralSpec) (r : RegBlock) : Prop := ∀ id : RegId, r.read id < 2 ^ id.width p

/-- The transfers still to make and the response to give are what is left of the operation of some request: `pending` is
"the non-empty list of transfers of the current operation not yet made and `rsp` the response to give when it is empty"
(10_state R50). -/
def LeftOfOperation (c : Config) (p : PeripheralSpec) (pending : List Transfer) (rsp : Response) : Prop :=
  ∃ (r : Request) (cc : CounterConfig) (made : List Transfer),
    execRequest c p r = .done cc (made ++ pending) ∧ rsp = responseOf cc

/-- A condition an instance can be in (10_state R50). -/
def Condition.Sound (c : Config) (p : PeripheralSpec) : Condition → Prop
  | .idle => True
  | .busy w rest rsp => LeftOfOperation c p (w :: rest) rsp

/-- THE INVARIANT of the machine: every instance can be instantiated (10_state R32), every register holds a value of its width
(10_state R42), every condition is one of 10_state R50, `GPIO_DIR` has `GPIO_W` bits (10_state R49). -/
structure State.Inv (s : State) : Prop where
  config : s.cfg.WellFormed
  regs : ∀ i, (s.inst i).regs.InRange (s.spec i)
  cond : ∀ i, (s.inst i).cond.Sound s.cfg (s.spec i)
  gpio : s.gpioDir < 2 ^ s.cfg.gpioW

/-- `n` steps, stopping at the first that answers no next state. -/
def runSteps : Nat → State → Host.Outcome State Fault Refusal
  | 0, s => .next s
  | n + 1, s =>
    match step s with
    | .next t => runSteps n t
    | .fault f => .fault f
    | .refused r => .refused r

/-- The registers of a block but CNT are as they were, and CNT too where the counter was not clocked (10_state R48). -/
def RegBlock.SameButCount (before after : RegBlock) : Prop :=
  (∀ id : RegId, id ≠ .cnt → after.read id = before.read id) ∧ (clocked before = false → after.cnt = before.cnt)

/-- An instance was left alone: no transfer of its own, no request taken, no register written but CNT by a clocked counter. -/
def Inst.LeftAlone (before after : Inst) : Prop :=
  after.cond = before.cond ∧ after.waiting = before.waiting ∧ before.regs.SameButCount after.regs

/-- The event is the turn of the instance `i`. -/
def Event.isTurnOf (i : InstId) : Event → Bool
  | .turn j => decide (j = i)
  | _ => false

/-- The event is a power cycle. -/
def Event.isPowerUp : Event → Bool
  | .powerUp _ => true
  | _ => false

/-- The event is an act of an instance or of the host: no other code's write, no power cycle. -/
def Event.isOwn : Event → Bool
  | .turn _ => true
  | .present _ _ => true
  | _ => false

end Sys2Proof.Machine
end

