-- ==== Sys2Proof/Certificates/Slice0/Obligations.lean ====
section
/-! DEFINITION. The statements about the machine, for the provers. Each docstring names the rules of the spec it formalises. -/

open Sys2Proof Sys2Proof.Machine

/-! ### Encoding -/

/-- Decoding what an operation is written as gives the operation back, for every well-formed operation with every operand at
every value its field admits (30_encoding R91, R92, R102, R107). -/
def Obligations.DecodeOfEncodeIsTheOperation : Prop :=
  ∀ i : Instr, i.wf = true → decode (encode i) = .ok i

/-- A decoded operation is well-formed, and writing it again gives the words it was read from, but for the fields the
operation ignores, which come out 0 (30_encoding R101, R102, R105, R107). -/
def Obligations.EncodeOfDecodeKeepsTheUsedFields : Prop :=
  ∀ (r : Request) (i : Instr), decode r = .ok i →
    i.wf = true ∧
    match i with
    | .cfgCtc _ _ => encode i = ⟨r.ctrl &&& 0x0002, r.period, 0⟩
    | .cfgPwm _ _ (some _) _ _ => encode i = r
    | .cfgPwm _ _ none _ _ => encode i = ⟨r.ctrl &&& 0x0007, r.period, r.on⟩

/-- The operation map: a `CTRL` word is CFG.CTC, CFG.PWM or reserved, exactly one of the three, by match and mask
(30_encoding R99). -/
def Obligations.ControlWordsAreSplitByTheOperationMap : Prop :=
  ∀ r : Request,
    (ctcRow.matchesCtrl r.ctrl = true ↔ ∃ period ie, decode r = .ok (.cfgCtc period ie)) ∧
    (pwmRow.matchesCtrl r.ctrl = true ↔ ∃ on period pin ieA ieB, decode r = .ok (.cfgPwm on period pin ieA ieB)) ∧
    (r.ctrl &&& 0x00F0 ≠ 0 ↔ decode r = .error .reservedBits) ∧
    ¬ (ctcRow.matchesCtrl r.ctrl = true ∧ pwmRow.matchesCtrl r.ctrl = true)

/-- Words written out from 30_encoding R91 decode to the operations they stand for. -/
def Obligations.WordsOfTheSpecDecode : Prop :=
  decode ⟨0x0002, 0x00000000003D0900, 0⟩ = .ok (.cfgCtc 4000000 true) ∧
  decode ⟨0xFF0E, 0x00000000003D0900, 0xFFFFFFFFFFFFFFFB⟩ = .ok (.cfgCtc 4000000 true) ∧
  decode ⟨0x020D, 0x00000000001E8480, 0x00000000000F4240⟩ = .ok (.cfgPwm 1000000 2000000 (some 2) false true) ∧
  decode ⟨0x0207, 0xFFFFFFFFFFFFFFFF, 0x8000000000000000⟩ = .ok (.cfgPwm (-2 ^ 63) (-1) none true true) ∧
  decode ⟨0x0219, 0, 0⟩ = .error .reservedBits

/-- Reading the line an operation is written as gives the instance and the operation back, with every duration of either sign
and every pin (30_encoding R107). The spacing read and written is the model's choice (log 20). -/
def Obligations.ReadingAWrittenLineGivesTheOperation : Prop :=
  ∀ (c : Config) (i : InstId) (instr : Instr), c.t16.name = "T16" → c.t8a.name = "T8A" → c.t8b.name = "T8B" →
    instr.wf = true → readLine c (writeLine c i instr) = some (i, instr)

/-- In CFG.CTC the fields IEB, PINP, PIN and the word ON change neither the response nor the write list, whatever they hold
(30_encoding R105). -/
def Obligations.CtcIgnoredFieldsChangeNothing : Prop :=
  ∀ (c : Config) (p : PeripheralSpec) (r r' : Request),
    r.ctrl &&& 0x00F1 = 0 → r'.ctrl &&& 0x00F1 = 0 → r.ctrl.getLsbD 1 = r'.ctrl.getLsbD 1 → r.period = r'.period →
    execRequest c p r = execRequest c p r'

/-! ### A step runs the decoded operation -/

/-- A turn of an `Idle` instance that has a request on its port runs `exec` of the operation decoded from the oldest one, in
the state in which the counters have moved, the event is used up, the request has left the port and the turn is the
instance's; `withFetchWord` makes such a state (10_state R51; logs 7, 9, 10). -/
def Obligations.StepRunsTheDecodedOperation : Prop :=
  (∀ (s : State) (i : InstId) (r : Request) (left : List Request) (later : List Event) (instr : Instr),
    s.schedule = .turn i :: later → (s.inst i).cond = .idle → (s.inst i).waiting = r :: left → decode r = .ok instr →
    step s = exec instr ((s.beginStep.setSchedule later).takeRequest i left)) ∧
  (∀ (s : State) (nbits w : Nat) (instr : Instr), decodeTableWord nbits w = some instr →
    ∃ t : State, step (s.withFetchWord nbits w) = exec instr t ∧ t.active = .t16 ∧ t.cfg = s.cfg ∧
      (t.inst .t16).cond = .idle ∧ (t.inst .t16).waiting = (s.inst .t16).waiting ∧ t.schedule = s.schedule ∧
      ∀ i, (s.inst i).regs.SameButCount (t.inst i).regs)

/-- Running a decoded operation is accepting what EXEC gives for the request (30_encoding R103, 10_state R51). -/
def Obligations.ExecIsTheAcceptanceOfExecRequest : Prop :=
  ∀ (s : State) (r : Request) (instr : Instr), decode r = .ok instr →
    exec instr s = accept (execRequest s.cfg (s.spec s.active) r) s

/-- A request with a reserved encoding is answered with status 5 and zeros; no transfer is made and the instance stays Idle;
and no other request fails to decode (30_encoding R104). -/
def Obligations.ReservedRequestIsAnsweredBadRequest : Prop :=
  (∀ r : Request, (∀ instr, decode r ≠ .ok instr) → r.ctrl &&& 0x00F0 ≠ 0) ∧
  ∀ (s : State) (i : InstId) (r : Request) (left : List Request) (later : List Event),
    s.schedule = .turn i :: later → s.cfg.OkFor i → (s.inst i).cond = .idle → (s.inst i).waiting = r :: left →
    r.ctrl &&& 0x00F0 ≠ 0 →
    ∃ t, step s = .next t ∧ t.rsp = some (i, ⟨.badRequest, 0, 0, false, 0⟩) ∧ statusCode .badRequest = 5 ∧
      (t.inst i).cond = .idle ∧ (t.inst i).waiting = left ∧ t.gpioDir = s.gpioDir ∧
      ∀ j, (s.inst j).regs.SameButCount (t.inst j).regs

/-- With no event scheduled, the first instance with something to do takes its turn; with nothing to do, only the counters move
(the model's choice, log 7). -/
def Obligations.EmptyScheduleRunsAReadyInstance : Prop :=
  ∀ s : State, s.schedule = [] →
    ((∃ i, (s.inst i).ready = true) → ∃ i, (s.inst i).ready = true ∧ step s = instanceTurn i s.beginStep) ∧
    ((∀ i, (s.inst i).ready = false) → step s = .next s.beginStep)

/-! ### CFG.CTC -/

/-- CFG.CTC that passes its checks: the instance becomes Busy with the five transfers IEN, MODE, TOP, DIV, CNT in this order and
the response `Ok idx top`, and nothing else changes (41_ctc R142, R143, R144, R145). -/
def Obligations.CtcSuccessStartsItsWriteList : Prop :=
  ∀ (s : State) (period : Int) (ie : Bool) (idx scaled : Nat),
    s.cfg.OkFor s.active → (s.inst s.active).cond = .idle → 0 ≤ period →
    rangeOk (cycles s.cfg period.toNat) (s.spec s.active) = true →
    divsel (cycles s.cfg period.toNat) (s.spec s.active) = some (idx, scaled) →
    exec (.cfgCtc period ie) s = .next (s.setCond s.active (.busy
      (.regWrite .ien (if ie then 2 ^ (s.spec s.active).layout.ienAPos.val else 0))
      [.regWrite .mode (2 * 2 ^ (s.spec s.active).layout.modePos.val), .regWrite .top scaled, .regWrite .div (idx + 1),
        .regWrite .cnt 0]
      ⟨.ok, idx, scaled, false, 0⟩))

/-- The checks of CFG.CTC in order, and what each failure leaves: a response with the status and zeros, everything else as it
was (41_ctc R141, 60_exceptions R213). -/
def Obligations.CtcChecksFailInOrder : Prop :=
  ∀ (s : State) (period : Int) (ie : Bool), s.cfg.OkFor s.active → (s.inst s.active).cond = .idle →
    (period < 0 →
      exec (.cfgCtc period ie) s = .next { s with rsp := some (s.active, ⟨.invalidDuration, 0, 0, false, 0⟩) }) ∧
    (0 ≤ period →
      (s.spec s.active).registerMax * maxDivider (s.spec s.active) < cycles s.cfg period.toNat →
      exec (.cfgCtc period ie) s = .next { s with rsp := some (s.active, ⟨.rangeExceeded, 0, 0, false, 0⟩) }) ∧
    (0 ≤ period →
      cycles s.cfg period.toNat ≤ (s.spec s.active).registerMax * maxDivider (s.spec s.active) →
      divsel (cycles s.cfg period.toNat) (s.spec s.active) = none →
      exec (.cfgCtc period ie) s = .next { s with rsp := some (s.active, ⟨.rangeExceeded, 0, 0, false, 0⟩) })

/-- A CFG.CTC operation from acceptance to response, with the instance's six turns one after the other: the whole register block
after it, what it leaves alone, and the response (41_ctc R142 to R146, R149). -/
def Obligations.CtcOperationFromAcceptToResponse : Prop :=
  ∀ (s : State) (i : InstId) (r : Request) (left : List Request) (later : List Event) (period : Int) (ie : Bool)
    (idx scaled : Nat),
    s.cfg.OkFor i → (s.inst i).cond = .idle → (s.inst i).waiting = r :: left → decode r = .ok (.cfgCtc period ie) →
    0 ≤ period → rangeOk (cycles s.cfg period.toNat) (s.spec i) = true →
    divsel (cycles s.cfg period.toNat) (s.spec i) = some (idx, scaled) →
    s.schedule = List.replicate 6 (.turn i) ++ later →
    ∃ t, runSteps 6 s = .next t ∧
      t.rsp = some (i, ⟨.ok, idx, scaled, false, 0⟩) ∧
      (t.inst i).cond = .idle ∧ (t.inst i).waiting = left ∧
      (t.inst i).regs =
        { ien := BitVec.ofNat 8 (if ie then 2 ^ (s.spec i).layout.ienAPos.val else 0),
          mode := BitVec.ofNat 8 (2 * 2 ^ (s.spec i).layout.modePos.val),
          top := scaled, cmpA := (s.inst i).regs.cmpA, cmpB := (s.inst i).regs.cmpB,
          div := BitVec.ofNat 8 (idx + 1), cnt := 0 } ∧
      t.gpioDir = s.gpioDir ∧ t.schedule = later ∧ t.cfg = s.cfg ∧
      ∀ j, j ≠ i → (s.inst j).LeftAlone (t.inst j)

/-! ### CFG.PWM -/

/-- CFG.PWM that passes its checks: the instance becomes Busy with the six transfers DirSet, IEN, MODE, TOP, the channel's
compare register, DIV in this order and the response `Ok idx top on`, and nothing else changes (42_pwm R162, R165, R166). -/
def Obligations.PwmSuccessStartsItsWriteList : Prop :=
  ∀ (s : State) (on period : Int) (pin : Option PinId) (ieA ieB : Bool) (idx scaled : Nat) (ch : Channel) (gpioBit : Nat),
    s.cfg.OkFor s.active → (s.inst s.active).cond = .idle → 0 ≤ on → on ≤ period →
    rangeOk (cycles s.cfg period.toNat) (s.spec s.active) = true →
    divsel (cycles s.cfg period.toNat) (s.spec s.active) = some (idx, scaled) →
    channelOf (s.spec s.active) pin = some (ch, gpioBit) →
    exec (.cfgPwm on period pin ieA ieB) s = .next (s.setCond s.active (.busy
      (.dirSet gpioBit)
      [.regWrite .ien ((if ieA then 2 ^ (s.spec s.active).layout.ienAPos.val else 0)
          + (if ieB then 2 ^ (s.spec s.active).layout.ienBPos.val else 0)),
        .regWrite .mode (2 ^ (s.spec s.active).layout.modePos.val
          + (match ch with
            | .a => 2 ^ (s.spec s.active).layout.ocAPos.val
            | .b => 2 ^ (s.spec s.active).layout.ocBPos.val)),
        .regWrite .top (scaled / 2),
        .regWrite (match ch with | .a => .cmpA | .b => .cmpB) (reduce (cycles s.cfg on.toNat) (s.spec s.active) idx / 2),
        .regWrite .div (idx + 1)]
      ⟨.ok, idx, scaled / 2, true, reduce (cycles s.cfg on.toNat) (s.spec s.active) idx / 2⟩))

/-- The checks of CFG.PWM in order, each with what its failure leaves: a response with the status and zeros, everything else as
it was (42_pwm R161, 60_exceptions R213, R216). -/
def Obligations.PwmChecksFailInOrder : Prop :=
  ∀ (s : State) (on period : Int) (pin : Option PinId) (ieA ieB : Bool),
    s.cfg.OkFor s.active → (s.inst s.active).cond = .idle →
    (on < 0 ∨ period < 0 →
      exec (.cfgPwm on period pin ieA ieB) s
        = .next { s with rsp := some (s.active, ⟨.invalidDuration, 0, 0, false, 0⟩) }) ∧
    (0 ≤ on → 0 ≤ period → period < on →
      exec (.cfgPwm on period pin ieA ieB) s
        = .next { s with rsp := some (s.active, ⟨.dutyExceedsPeriod, 0, 0, false, 0⟩) }) ∧
    (0 ≤ on → on ≤ period →
      (s.spec s.active).registerMax * maxDivider (s.spec s.active) < cycles s.cfg period.toNat →
      exec (.cfgPwm on period pin ieA ieB) s
        = .next { s with rsp := some (s.active, ⟨.rangeExceeded, 0, 0, false, 0⟩) }) ∧
    (0 ≤ on → on ≤ period →
      cycles s.cfg period.toNat ≤ (s.spec s.active).registerMax * maxDivider (s.spec s.active) →
      divsel (cycles s.cfg period.toNat) (s.spec s.active) = none →
      exec (.cfgPwm on period pin ieA ieB) s
        = .next { s with rsp := some (s.active, ⟨.rangeExceeded, 0, 0, false, 0⟩) }) ∧
    (0 ≤ on → on ≤ period →
      cycles s.cfg period.toNat ≤ (s.spec s.active).registerMax * maxDivider (s.spec s.active) →
      divsel (cycles s.cfg period.toNat) (s.spec s.active) ≠ none →
      channelOf (s.spec s.active) pin = none →
      exec (.cfgPwm on period pin ieA ieB) s
        = .next { s with rsp := some (s.active, ⟨.invalidOutputPin, 0, 0, false, 0⟩) })

/-- A CFG.PWM operation from acceptance to response, with the instance's seven turns one after the other: the registers after
it, the one direction bit it sets, what it leaves alone (CNT too, where the counter was stopped), and the response
(42_pwm R165 to R167, R169, R173). -/
def Obligations.PwmOperationFromAcceptToResponse : Prop :=
  ∀ (s : State) (i : InstId) (r : Request) (left : List Request) (later : List Event) (on period : Int)
    (pin : Option PinId) (ieA ieB : Bool) (idx scaled : Nat) (ch : Channel) (gpioBit : Nat),
    s.cfg.OkFor i → (s.inst i).cond = .idle → (s.inst i).waiting = r :: left →
    decode r = .ok (.cfgPwm on period pin ieA ieB) → 0 ≤ on → on ≤ period →
    rangeOk (cycles s.cfg period.toNat) (s.spec i) = true →
    divsel (cycles s.cfg period.toNat) (s.spec i) = some (idx, scaled) →
    channelOf (s.spec i) pin = some (ch, gpioBit) →
    s.schedule = List.replicate 7 (.turn i) ++ later →
    ∃ t, runSteps 7 s = .next t ∧
      t.rsp = some (i, ⟨.ok, idx, scaled / 2, true, reduce (cycles s.cfg on.toNat) (s.spec i) idx / 2⟩) ∧
      (t.inst i).cond = .idle ∧ (t.inst i).waiting = left ∧
      ienIea (s.spec i).layout (t.inst i).regs.ien = ieA ∧ ienIeb (s.spec i).layout (t.inst i).regs.ien = ieB ∧
      modeWgm (s.spec i).layout (t.inst i).regs.mode = 1 ∧
      modeOca (s.spec i).layout (t.inst i).regs.mode = decide (ch = .a) ∧
      modeOcb (s.spec i).layout (t.inst i).regs.mode = decide (ch = .b) ∧
      (t.inst i).regs.top = scaled / 2 ∧ (t.inst i).regs.div = BitVec.ofNat 8 (idx + 1) ∧
      (match ch with
        | .a => (t.inst i).regs.cmpA = reduce (cycles s.cfg on.toNat) (s.spec i) idx / 2 ∧
            (t.inst i).regs.cmpB = (s.inst i).regs.cmpB
        | .b => (t.inst i).regs.cmpB = reduce (cycles s.cfg on.toNat) (s.spec i) idx / 2 ∧
            (t.inst i).regs.cmpA = (s.inst i).regs.cmpA) ∧
      (clocked (s.inst i).regs = false → (t.inst i).regs.cnt = (s.inst i).regs.cnt) ∧
      (∀ b, t.isOutput b = (s.isOutput b || decide (b = gpioBit))) ∧
      t.schedule = later ∧ t.cfg = s.cfg ∧ ∀ j, j ≠ i → (s.inst j).LeftAlone (t.inst j)

/-- On a consistent spec the up-front range test decides: every CFG.CTC and every CFG.PWM whose operands pass it (and, for PWM,
whose duty and pin are legal) starts its operation (40 R127, 41_ctc R141, 42_pwm R161). -/
def Obligations.RequestsInRangeStartOnAConsistentSpec : Prop :=
  ∀ s : State, s.cfg.OkFor s.active → Consistent (s.spec s.active) → (s.inst s.active).cond = .idle →
    (∀ (period : Int) (ie : Bool), 0 ≤ period →
      cycles s.cfg period.toNat ≤ (s.spec s.active).registerMax * maxDivider (s.spec s.active) →
      ∃ w rest rsp, exec (.cfgCtc period ie) s = .next (s.setCond s.active (.busy w rest rsp)) ∧ rsp.status = .ok) ∧
    (∀ (on period : Int) (pin : Option PinId) (ieA ieB : Bool), 0 ≤ on → on ≤ period →
      cycles s.cfg period.toNat ≤ (s.spec s.active).registerMax * maxDivider (s.spec s.active) →
      channelOf (s.spec s.active) pin ≠ none →
      ∃ w rest rsp, exec (.cfgPwm on period pin ieA ieB) s = .next (s.setCond s.active (.busy w rest rsp)) ∧
        rsp.status = .ok)

/-- `CHANNEL_OF`: channel A for the identifier of pin A, channel B for that of pin B, none for any other and for no pin
(42_pwm R164). -/
def Obligations.ChannelOfThePinNamed : Prop :=
  ∀ (gpioW : Nat) (p : PeripheralSpec), p.pins.Ok gpioW →
    channelOf p none = none ∧
    (∀ q, p.pins.pinA = some q → channelOf p (some q.id) = some (.a, q.gpioBit)) ∧
    (∀ q, p.pins.pinB = some q → channelOf p (some q.id) = some (.b, q.gpioBit)) ∧
    (∀ id, (∀ q, p.pins.pinA = some q → q.id ≠ id) → (∀ q, p.pins.pinB = some q → q.id ≠ id) →
      channelOf p (some id) = none)

/-! ### Errors -/

/-- Any request that EXEC answers with an error ends at the step that accepts it: the status and zeros in the response, no
transfer, the instance `Idle`, every register and `GPIO_DIR` as before (20_memory R85, 60_exceptions R213). -/
def Obligations.FailureMakesNoTransfer : Prop :=
  ∀ (s : State) (i : InstId) (r : Request) (left : List Request) (later : List Event) (st : Status),
    s.schedule = .turn i :: later → s.cfg.OkFor i → (s.inst i).cond = .idle → (s.inst i).waiting = r :: left →
    execRequest s.cfg (s.spec i) r = .error st →
    ∃ t, step s = .next t ∧ t.rsp = some (i, ⟨st, 0, 0, false, 0⟩) ∧ (t.inst i).cond = .idle ∧
      (t.inst i).waiting = left ∧ t.gpioDir = s.gpioDir ∧ t.schedule = later ∧ t.cfg = s.cfg ∧
      (∀ j, (s.inst j).regs.SameButCount (t.inst j).regs) ∧ ∀ j, j ≠ i → (s.inst j).LeftAlone (t.inst j)

/-- Which operation can end with which status: no other than these, and each of these does occur at an instance whose
parameters are well-formed (60_exceptions R217, 10_state R32). -/
def Obligations.StatusesOfEachOperation : Prop :=
  (∀ (c : Config) (p : PeripheralSpec) (r : Request) (st : Status), execRequest c p r = .error st →
    match decode r with
    | .ok (.cfgCtc _ _) => st = .invalidDuration ∨ st = .rangeExceeded
    | .ok (.cfgPwm _ _ _ _ _) =>
        st = .invalidDuration ∨ st = .rangeExceeded ∨ st = .dutyExceedsPeriod ∨ st = .invalidOutputPin
    | .error .reservedBits => st = .badRequest) ∧
  (∀ st, st = .invalidDuration ∨ st = .rangeExceeded → ∃ (c : Config) (i : InstId) (r : Request) (period : Int) (ie : Bool),
    c.OkFor i ∧ decode r = .ok (.cfgCtc period ie) ∧ execRequest c (c.spec i) r = .error st) ∧
  (∀ st, st = .invalidDuration ∨ st = .rangeExceeded ∨ st = .dutyExceedsPeriod ∨ st = .invalidOutputPin →
    ∃ (c : Config) (i : InstId) (r : Request) (on period : Int) (pin : Option PinId) (ieA ieB : Bool),
      c.OkFor i ∧ decode r = .ok (.cfgPwm on period pin ieA ieB) ∧ execRequest c (c.spec i) r = .error st) ∧
  (∃ (c : Config) (i : InstId) (r : Request) (period : Int) (ie : Bool) (cc : CounterConfig) (ws : List Transfer),
    c.OkFor i ∧ decode r = .ok (.cfgCtc period ie) ∧ execRequest c (c.spec i) r = .done cc ws) ∧
  (∃ (c : Config) (i : InstId) (r : Request) (on period : Int) (pin : Option PinId) (ieA ieB : Bool) (cc : CounterConfig)
      (ws : List Transfer),
    c.OkFor i ∧ decode r = .ok (.cfgPwm on period pin ieA ieB) ∧ execRequest c (c.spec i) r = .done cc ws) ∧
  (∃ (c : Config) (i : InstId) (r : Request), c.OkFor i ∧ decode r = .error .reservedBits) ∧
  (∀ c p r, decode r = .error .reservedBits → execRequest c p r = .error .badRequest)

/-- The numbers of the status codes: zero is success, no two statuses have one number, 6 and 7 are never produced
(30_encoding R98). -/
def Obligations.StatusCodesOfTheSpec : Prop :=
  statusCode .ok = 0 ∧ statusCode .invalidDuration = 1 ∧ statusCode .rangeExceeded = 2 ∧
  statusCode .dutyExceedsPeriod = 3 ∧ statusCode .invalidOutputPin = 4 ∧ statusCode .badRequest = 5 ∧
  ∀ st, statusCode st ≠ 6 ∧ statusCode st ≠ 7

/-- Every response fits its record: on success the status code 0, a divider index of three bits that is an index of the
sequence, thresholds of the register's width, and an on-value exactly for CFG.PWM; on failure a code from 1 to 5
(30_encoding R96, R98). -/
def Obligations.ResponseFitsItsRecord : Prop :=
  ∀ (c : Config) (i : InstId) (r : Request), c.OkFor i →
    match execRequest c (c.spec i) r with
    | .error st => 1 ≤ (statusCode st).toNat ∧ (statusCode st).toNat ≤ 5
    | .done cc _ =>
        statusCode (responseOf cc).status = 0 ∧ (responseOf cc).divIndex < (c.spec i).dividers.length ∧
        (responseOf cc).divIndex < 2 ^ 3 ∧ (responseOf cc).top < 2 ^ (c.spec i).width.bits ∧
        (responseOf cc).on < 2 ^ (c.spec i).width.bits ∧
        ((responseOf cc).onValid = true ↔ ∃ on period pin ieA ieB, decode r = .ok (.cfgPwm on period pin ieA ieB)) ∧
        ((responseOf cc).onValid = false → (responseOf cc).on = 0)

/-- An instance with an ill-formed spec takes no request: both operations are refused by name (10_state R32). -/
def Obligations.IllFormedSpecIsRefused : Prop :=
  ∀ (s : State) (instr : Instr), ¬ s.cfg.OkFor s.active → (s.inst s.active).cond = .idle →
    exec instr s = .refused .illFormedSpec

/-! ### Divider selector and threshold scaler -/

/-- `DIVSEL` in closed form: the least index whose running product brings the count into the register, and failure exactly when
no index does; success at an index is `raw < (register_max + 1) * P[i]` (40 R125). -/
def Obligations.SelectorClosedForm : Prop :=
  ∀ (raw : Nat) (p : PeripheralSpec), (∀ f ∈ p.steps, 1 ≤ f) →
    (∀ idx v, divsel raw p = some (idx, v) ↔
      idx < p.steps.length ∧ v = raw / cumulative p idx ∧ raw / cumulative p idx ≤ p.registerMax ∧
        ∀ j, j < idx → p.registerMax < raw / cumulative p j) ∧
    (divsel raw p = none ↔ ∀ j, j < p.steps.length → p.registerMax < raw / cumulative p j) ∧
    (∀ j, j < p.steps.length → (raw / cumulative p j ≤ p.registerMax ↔ raw < (p.registerMax + 1) * cumulative p j))

/-- On a consistent spec the selector finds the smallest divider of the sequence such that the count divided by it fits
(40 R123, R125, 10_state R35). -/
def Obligations.ConsistentSelectorFindsTheSmallestDivider : Prop :=
  ∀ (gpioW raw idx v : Nat) (p : PeripheralSpec), p.WellFormed gpioW → Consistent p → divsel raw p = some (idx, v) →
    ∃ d, p.dividers[idx]? = some d ∧ v = raw / d ∧ v ≤ p.registerMax ∧
      ∀ (j d' : Nat), p.dividers[j]? = some d' → d' < d → p.registerMax < raw / d'

/-- On a consistent spec the selector cannot fail once the range test has passed (40 R127). -/
def Obligations.RangeTestMakesTheSelectorSucceed : Prop :=
  ∀ (gpioW raw : Nat) (p : PeripheralSpec), p.WellFormed gpioW → Consistent p → rangeOk raw p = true → divsel raw p ≠ none

/-- Reducing the count the divider was selected for gives the selector's scaled count; reducing any count is one division by
the running product (40 R129). -/
def Obligations.ReduceShrinksInLockStep : Prop :=
  ∀ (p : PeripheralSpec), (∀ f ∈ p.steps, 1 ≤ f) →
    (∀ raw idx v, divsel raw p = some (idx, v) → reduce raw p idx = v) ∧
    (∀ raw idx, reduce raw p idx = raw / cumulative p idx)

/-- What CFG.CTC configures: an index of the sequence, a top value that fits the register, no on-value (40 R126). -/
def Obligations.CtcTopFitsTheRegister : Prop :=
  ∀ (c : Config) (p : PeripheralSpec) (period : Int) (ie : Bool) (cc : CounterConfig) (ws : List Transfer),
    p.dividers.length = p.steps.length → cfgCtc c p period ie = .done cc ws →
    cc.dividerIndex < p.dividers.length ∧ cc.topValue ≤ p.registerMax ∧ cc.onValue = none

/-- What CFG.PWM configures: an index of the sequence, a top value of at most half the register, and an on-value that never
exceeds it (40 R126, R131, 42_pwm R167). -/
def Obligations.PwmOnValueNeverExceedsTop : Prop :=
  ∀ (c : Config) (p : PeripheralSpec) (on period : Int) (pin : Option PinId) (ieA ieB : Bool) (cc : CounterConfig)
    (ws : List Transfer),
    p.dividers.length = p.steps.length → cfgPwm c p on period pin ieA ieB = .done cc ws →
    cc.dividerIndex < p.dividers.length ∧
    ∃ v, cc.onValue = some v ∧ v ≤ cc.topValue ∧ cc.topValue ≤ p.registerMax / 2

/-- Rounding down: the configured count times the divider never exceeds the requested period and misses it by less than
`D + 1` clock cycles; with the running product in place of the divider on an inconsistent spec; for CFG.PWM twice the top
value (40 R134). Multiplied out: `top * P <= t * F_CLK / TPS` is `top * P * TPS <= t * F_CLK`. -/
def Obligations.ConfiguredPeriodNeverOvershoots : Prop :=
  ∀ (c : Config) (i : InstId), c.OkFor i →
    (∀ period ie cc ws, cfgCtc c (c.spec i) period ie = .done cc ws →
      cc.topValue * cumulative (c.spec i) cc.dividerIndex ≤ cycles c period.toNat ∧
      cycles c period.toNat * c.tps ≤ period.toNat * c.fClk ∧
      period.toNat * c.fClk <
        (cc.topValue * cumulative (c.spec i) cc.dividerIndex + cumulative (c.spec i) cc.dividerIndex + 1) * c.tps ∧
      (Consistent (c.spec i) → ∀ d, (c.spec i).dividers[cc.dividerIndex]? = some d →
        cc.topValue * d ≤ cycles c period.toNat ∧ cc.topValue * d * c.tps ≤ period.toNat * c.fClk ∧
        period.toNat * c.fClk < (cc.topValue * d + d + 1) * c.tps)) ∧
    (∀ on period pin ieA ieB cc ws, cfgPwm c (c.spec i) on period pin ieA ieB = .done cc ws →
      2 * cc.topValue * cumulative (c.spec i) cc.dividerIndex ≤ cycles c period.toNat ∧
      (Consistent (c.spec i) → ∀ d, (c.spec i).dividers[cc.dividerIndex]? = some d →
        2 * cc.topValue * d ≤ cycles c period.toNat))

/-! ### The packer -/

/-- The fields the packer puts into IEN and MODE do not overlap: or is the same as plus, each field can be read back, and the
bits no field occupies are 0 (43_packer R194 to R197). -/
def Obligations.PackedFieldsReadBack : Prop :=
  ∀ (l : Layout) (m : CountMode) (f : PackFlags), l.Ok →
    ienIea l (ienValue l f) = f.ieA ∧ ienIeb l (ienValue l f) = f.ieB ∧
    modeWgm l (modeValue l m f) = (match m with | .pwm => 1 | .ctc => 2) ∧
    modeOca l (modeValue l m f) = f.ocA ∧ modeOcb l (modeValue l m f) = f.ocB ∧
    (∀ b, b ≠ l.ienAPos.val → b ≠ l.ienBPos.val → (ienValue l f).getLsbD b = false) ∧
    (∀ b, b ≠ l.modePos.val → b ≠ l.modePos.val + 1 → b ≠ l.ocAPos.val → b ≠ l.ocBPos.val →
      (modeValue l m f).getLsbD b = false) ∧
    (ienValue l f).toNat = f.ieA.toNat * 2 ^ l.ienAPos.val + f.ieB.toNat * 2 ^ l.ienBPos.val ∧
    (modeValue l m f).toNat = (match m with | .pwm => 1 | .ctc => 2) * 2 ^ l.modePos.val
      + f.ocA.toNat * 2 ^ l.ocAPos.val + f.ocB.toNat * 2 ^ l.ocBPos.val

/-- The divider code of an index of a well-formed spec: `idx + 1` in bits 2:0, never 0, bits 7:3 zero (43_packer R193). -/
def Obligations.DividerCodeIsIndexPlusOne : Prop :=
  ∀ (gpioW idx : Nat) (p : PeripheralSpec), p.WellFormed gpioW → idx < p.dividers.length →
    divValue idx = idx + 1 ∧ divValue idx ≤ 7 ∧ (divCs (BitVec.ofNat 8 (divValue idx))).toNat = idx + 1 ∧ divCs (BitVec.ofNat 8 (divValue idx)) ≠ 0 ∧
    ∀ b, 3 ≤ b → (BitVec.ofNat 8 (divValue idx)).getLsbD b = false

/-- In every list PACK returns the transfer to MODE comes before the transfer to DIV, and all thresholds are in place before it
(43_packer R191). -/
def Obligations.ModeIsWrittenBeforeDiv : Prop :=
  ∀ (l : Layout) (m : CountMode) (idx : Nat) (f : PackFlags) (top : Nat) (on : Option (Channel × Nat)) (dir : Option Nat)
    (before after : List Transfer) (w : Transfer),
    pack l m idx f top on dir = before ++ w :: after → w.writesReg .div = true →
    (∃ x ∈ before, x.writesReg .mode = true) ∧
    ∀ x ∈ after, ∀ id, id = .mode ∨ id = .top ∨ id = .cmpA ∨ id = .cmpB → x.writesReg id = false

/-- Every transfer of every operation meets the precondition of its port, so no value is truncated; an operation makes five
(CFG.CTC) or six (CFG.PWM) transfers (20_memory R72, 43_packer R192). -/
def Obligations.EveryTransferFitsItsRegister : Prop :=
  ∀ (c : Config) (i : InstId) (r : Request) (cc : CounterConfig) (ws : List Transfer), c.OkFor i →
    execRequest c (c.spec i) r = .done cc ws →
    (∀ w ∈ ws, transferOk c (c.spec i) w = true) ∧
    (match decode r with
      | .ok (.cfgCtc _ _) => ws.length = 5
      | .ok (.cfgPwm _ _ _ _ _) => ws.length = 6
      | .error _ => False)

/-! ### Transfers -/

/-- A register transfer that meets its precondition replaces all of that register: it holds the value, no other register of the
block changes, nor does anything else (20_memory R70). -/
def Obligations.RegWriteReplacesOneRegister : Prop :=
  ∀ (s : State) (i : InstId) (id : RegId) (v : Nat), transferOk s.cfg (s.spec i) (.regWrite id v) = true →
    ((s.perform i (.regWrite id v)).inst i).regs.read id = v ∧
    (∀ id', id' ≠ id → ((s.perform i (.regWrite id v)).inst i).regs.read id' = (s.inst i).regs.read id') ∧
    ((s.perform i (.regWrite id v)).inst i).cond = (s.inst i).cond ∧
    ((s.perform i (.regWrite id v)).inst i).waiting = (s.inst i).waiting ∧
    (∀ j, j ≠ i → (s.perform i (.regWrite id v)).inst j = s.inst j) ∧
    (s.perform i (.regWrite id v)).gpioDir = s.gpioDir ∧ (s.perform i (.regWrite id v)).rsp = s.rsp ∧
    (s.perform i (.regWrite id v)).cfg = s.cfg ∧ (s.perform i (.regWrite id v)).schedule = s.schedule

/-- `DirSet(b)`: bit `b` of `GPIO_DIR` is 1, every other bit keeps its value, no register changes (20_memory R74). -/
def Obligations.DirSetSetsOneBit : Prop :=
  ∀ (s : State) (i : InstId) (b : Nat),
    (s.perform i (.dirSet b)).isOutput b = true ∧
    (∀ b', b' ≠ b → (s.perform i (.dirSet b)).isOutput b' = s.isOutput b') ∧
    (∀ j, (s.perform i (.dirSet b)).inst j = s.inst j) ∧ (s.perform i (.dirSet b)).rsp = s.rsp ∧
    (s.perform i (.dirSet b)).cfg = s.cfg ∧ (s.perform i (.dirSet b)).schedule = s.schedule

/-- A turn of a Busy instance makes exactly the first transfer of its list, and gives the response when it was the last
(10_state R51, 20_memory R76). -/
def Obligations.TurnMakesTheNextTransfer : Prop :=
  ∀ (s : State) (i : InstId) (w : Transfer) (rest : List Transfer) (rsp : Response) (later : List Event),
    s.schedule = .turn i :: later → (s.inst i).cond = .busy w rest rsp → transferOk s.cfg (s.spec i) w = true →
    (w.writesReg .div = true → ∀ x ∈ rest, x.writesReg .mode = false) →
    ∃ t, step s = .next t ∧
      (t.inst i).cond = (match rest with
        | [] => .idle
        | w' :: rest' => .busy w' rest' rsp) ∧
      t.rsp = (if rest = [] then some (i, rsp) else none) ∧
      (t.inst i).regs = ((s.beginStep.perform i w).inst i).regs ∧ (t.inst i).waiting = (s.inst i).waiting ∧
      t.gpioDir = (s.perform i w).gpioDir ∧ t.schedule = later ∧ t.cfg = s.cfg ∧
      ∀ j, j ≠ i → (s.inst j).LeftAlone (t.inst j)

/-- A request presented while the instance is Busy is not accepted: it waits on the port, and neither presenting it nor a turn
of the instance takes it (70_reset R253, 10_state R51). -/
def Obligations.BusyInstanceHoldsRequests : Prop :=
  (∀ (s : State) (i : InstId) (r : Request) (later : List Event), s.schedule = .present i r :: later →
    ∃ t, step s = .next t ∧ (t.inst i).waiting = (s.inst i).waiting ++ [r] ∧ (t.inst i).cond = (s.inst i).cond ∧
      (s.inst i).regs.SameButCount (t.inst i).regs ∧ t.gpioDir = s.gpioDir ∧ t.rsp = none ∧ t.schedule = later ∧
      ∀ j, j ≠ i → (s.inst j).LeftAlone (t.inst j)) ∧
  (∀ (s t : State) (i : InstId) (w : Transfer) (rest : List Transfer) (rsp : Response) (later : List Event),
    s.schedule = .turn i :: later → (s.inst i).cond = .busy w rest rsp → step s = .next t →
    (t.inst i).waiting = (s.inst i).waiting) ∧
  (∀ (s : State) (instr : Instr) (w : Transfer) (rest : List Transfer) (rsp : Response),
    (s.inst s.active).cond = .busy w rest rsp → exec instr s = .next s)

/-- An accepted operation seen part way: after acceptance and `k` turns of the instance, the block holds the old contents with
the first `k` transfers of the write list applied in order (CNT apart, which a clocked counter moves), `GPIO_DIR` likewise,
and for `k` the whole list the operation is over (10_state R51, 20_memory R76, 70_reset R248). -/
def Obligations.OperationIsItsWriteListInOrder : Prop :=
  ∀ (s : State) (i : InstId) (r : Request) (left : List Request) (later : List Event) (cc : CounterConfig)
    (ws : List Transfer) (k : Nat),
    s.cfg.OkFor i → (s.inst i).cond = .idle → (s.inst i).waiting = r :: left →
    execRequest s.cfg (s.spec i) r = .done cc ws → k ≤ ws.length →
    s.schedule = List.replicate (k + 1) (.turn i) ++ later →
    ∃ t, runSteps (k + 1) s = .next t ∧
      (∀ id, id ≠ .cnt → (t.inst i).regs.read id = ((s.performAll i (ws.take k)).inst i).regs.read id) ∧
      t.gpioDir = (s.performAll i (ws.take k)).gpioDir ∧
      (t.inst i).waiting = left ∧
      (k = ws.length → (t.inst i).cond = .idle ∧ t.rsp = some (i, responseOf cc)) ∧
      (k < ws.length → t.rsp = none ∧ ∃ w rest, ws.drop k = w :: rest ∧ (t.inst i).cond = .busy w rest (responseOf cc)) ∧
      ∀ j, j ≠ i → (s.inst j).LeftAlone (t.inst j)

/-- What the registers hold after a successful operation with nothing else writing in between (10_state R56). -/
def Obligations.RegistersAfterASuccessfulOperation : Prop :=
  ∀ (s : State) (i : InstId) (r : Request) (cc : CounterConfig) (ws : List Transfer), s.cfg.OkFor i →
    execRequest s.cfg (s.spec i) r = .done cc ws →
    ((s.performAll i ws).inst i).regs.top = cc.topValue ∧ cc.topValue ≤ (s.spec i).registerMax ∧
    (divCs ((s.performAll i ws).inst i).regs.div).toNat = cc.dividerIndex + 1 ∧
    cc.dividerIndex < (s.spec i).dividers.length ∧
    (modeWgm (s.spec i).layout ((s.performAll i ws).inst i).regs.mode = 1 ∨
      modeWgm (s.spec i).layout ((s.performAll i ws).inst i).regs.mode = 2) ∧
    ¬ (modeOca (s.spec i).layout ((s.performAll i ws).inst i).regs.mode = true ∧
      modeOcb (s.spec i).layout ((s.performAll i ws).inst i).regs.mode = true) ∧
    (∀ v, cc.onValue = some v → v ≤ cc.topValue ∧
      ((modeOca (s.spec i).layout ((s.performAll i ws).inst i).regs.mode = true ∧
          ((s.performAll i ws).inst i).regs.cmpA = v) ∨
        (modeOcb (s.spec i).layout ((s.performAll i ws).inst i).regs.mode = true ∧
          ((s.performAll i ws).inst i).regs.cmpB = v)))

/-- Performing an operation's write list twice leaves the registers and `GPIO_DIR` as performing it once
(00_scope R24, 20_memory R80). -/
def Obligations.OperationIsIdempotent : Prop :=
  ∀ (s : State) (i : InstId) (r : Request) (cc : CounterConfig) (ws : List Transfer), s.cfg.OkFor i →
    execRequest s.cfg (s.spec i) r = .done cc ws →
    (s.performAll i ws).performAll i ws = s.performAll i ws

/-- The response and the write list of an operation are a function of the request alone: two states that agree on the
parameters, in whatever their registers and `GPIO_DIR` differ, start the same write list or give the same error
(00_scope R24, 20_memory R73). -/
def Obligations.OutcomeDoesNotDependOnRegisters : Prop :=
  ∀ (s s' : State) (instr : Instr), s.cfg = s'.cfg → s.active = s'.active → s.cfg.OkFor s.active →
    (s.inst s.active).cond = .idle → (s'.inst s'.active).cond = .idle → s.rsp = s'.rsp →
    ∃ t t', exec instr s = .next t ∧ exec instr s' = .next t' ∧
      (t.inst s.active).cond = (t'.inst s.active).cond ∧ t.rsp = t'.rsp ∧
      (t.inst s.active).regs = (s.inst s.active).regs ∧ (t'.inst s.active).regs = (s'.inst s.active).regs ∧
      t.gpioDir = s.gpioDir ∧ t'.gpioDir = s'.gpioDir

/-! ### Several agents -/

/-- Transfers of two instances do not interfere: made in either order they give the same state (20_memory R83). -/
def Obligations.TransfersOfTwoInstancesCommute : Prop :=
  ∀ (s : State) (i j : InstId) (v w : Transfer), i ≠ j →
    (s.perform i v).perform j w = (s.perform j w).perform i v

/-- A turn of an instance leaves every other instance alone: its condition, its requests and its registers
(10_state R55, R57). -/
def Obligations.TurnTouchesOnlyItsOwnPeripheral : Prop :=
  ∀ (s t : State) (i : InstId) (later : List Event), s.schedule = .turn i :: later → step s = .next t →
    ∀ j, j ≠ i → (s.inst j).LeftAlone (t.inst j)

/-- Direction bits only go to 1: a step that is no other code's write and no power cycle clears no bit of `GPIO_DIR`
(10_state R49). -/
def Obligations.DirectionBitsAreNeverClearedByTheEngine : Prop :=
  ∀ (s t : State), (∀ e later, s.schedule = e :: later → e.isOwn = true) → step s = .next t →
    ∀ b, s.isOutput b = true → t.isOutput b = true

/-- Other code may clear a direction bit by writing the whole word, and the engine does not notice: the instance goes on as it
was (70_reset R252). -/
def Obligations.OutsideDirectionWriteCanClearABit : Prop :=
  ∀ (s : State) (later : List Event) (v b : Nat), s.schedule = .outsideDir v :: later → b < s.cfg.gpioW →
    ∃ t, step s = .next t ∧ t.isOutput b = v.testBit b ∧ (∀ b', s.cfg.gpioW ≤ b' → t.isOutput b' = false) ∧
      t.rsp = none ∧ ∀ j, (s.inst j).LeftAlone (t.inst j)

/-- Other code's write to a register: the register takes the value on its width, and no other register, no condition and no
direction bit changes; CNT, when it is another register, may change only where its counter is clocked (00_scope R20,
10_state R45, R48, R55; log 13). -/
def Obligations.OutsideWriteChangesOneRegister : Prop :=
  ∀ (s : State) (later : List Event) (i : InstId) (id : RegId) (v : Nat), s.schedule = .outsideWrite i id v :: later →
    ∃ t, step s = .next t ∧ (t.inst i).regs.read id = v % 2 ^ id.width (s.spec i) ∧
      (∀ id', id' ≠ id → id' ≠ .cnt → (t.inst i).regs.read id' = (s.inst i).regs.read id') ∧
      (id ≠ .cnt → clocked (s.inst i).regs = false → (t.inst i).regs.cnt = (s.inst i).regs.cnt) ∧
      (t.inst i).cond = (s.inst i).cond ∧ (t.inst i).waiting = (s.inst i).waiting ∧ t.gpioDir = s.gpioDir ∧
      t.rsp = none ∧ t.cfg = s.cfg ∧ t.schedule = later ∧
      ∀ j, j ≠ i → (s.inst j).LeftAlone (t.inst j)

/-- Between two steps a clocked counter moves to some value of its width and nothing else changes by itself; a stopped counter
keeps its value (10_state R45, R48). What the value is, nothing says. -/
def Obligations.OnlyClockedCountersMoveByThemselves : Prop :=
  ∀ (s : State) (i : InstId),
    (s.inst i).LeftAlone (s.beginStep.inst i) ∧
    (clocked (s.inst i).regs = true → (s.beginStep.inst i).regs.cnt < 2 ^ (s.spec i).width.bits) ∧
    s.beginStep.gpioDir = s.gpioDir ∧ s.beginStep.schedule = s.schedule ∧ s.beginStep.cfg = s.cfg ∧ s.beginStep.rsp = none

/-- A response is on the wire only after a step that ends an operation: the turn of the instance named in it, scheduled or (with
an empty schedule) chosen, that made the last transfer of a Busy instance, or that refused the oldest request of an Idle one.
Any other step leaves the wire empty: a transfer before the last, the accepting turn of a request that succeeds, a turn with
nothing to do, an act of the host or of other code, and, with an empty schedule, a step in which no instance has anything to do
(10_state R51, R53, 70_reset R255; whose turn it is with an empty schedule is the model's choice, log 7). -/
def Obligations.ResponseIsNotKept : Prop :=
  ∀ (s t : State), step s = .next t →
    (∀ i rsp, t.rsp = some (i, rsp) →
      ((∃ later, s.schedule = .turn i :: later) ∨ (s.schedule = [] ∧ s.nextReady = some i)) ∧
      ((∃ w, (s.inst i).cond = .busy w [] rsp) ∨
        ((s.inst i).cond = .idle ∧ ∃ r left st, (s.inst i).waiting = r :: left ∧
          execRequest s.cfg (s.spec i) r = .error st ∧ rsp = errorResponse st))) ∧
    (∀ i later w w' rest rsp, s.schedule = .turn i :: later → (s.inst i).cond = .busy w (w' :: rest) rsp → t.rsp = none) ∧
    (∀ i later r left cc ws, s.schedule = .turn i :: later → (s.inst i).cond = .idle → (s.inst i).waiting = r :: left →
      execRequest s.cfg (s.spec i) r = .done cc ws → t.rsp = none) ∧
    (∀ i later, s.schedule = .turn i :: later → (s.inst i).cond = .idle → (s.inst i).waiting = [] → t.rsp = none) ∧
    (∀ e later, s.schedule = e :: later → (∀ i, e.isTurnOf i = false) → t.rsp = none) ∧
    (s.schedule = [] → (∀ i, (s.inst i).ready = false) → t.rsp = none) ∧
    (∀ i w w' rest rsp, s.schedule = [] → s.nextReady = some i → (s.inst i).cond = .busy w (w' :: rest) rsp → t.rsp = none) ∧
    (∀ i r left cc ws, s.schedule = [] → s.nextReady = some i → (s.inst i).cond = .idle → (s.inst i).waiting = r :: left →
      execRequest s.cfg (s.spec i) r = .done cc ws → t.rsp = none)

/-- When power returns every instance is Idle with nothing pending, no response is given, and the registers hold the contents
given from outside on their widths (70_reset R240; logs 13 and 16). -/
def Obligations.PowerUpMakesEveryInstanceIdle : Prop :=
  ∀ (s : State) (c : Contents) (later : List Event), s.schedule = .powerUp c :: later →
    ∃ t, step s = .next t ∧ t.rsp = none ∧ t.cfg = s.cfg ∧ t.schedule = later ∧
      (∀ i, (t.inst i).cond = .idle ∧ (t.inst i).waiting = []) ∧
      (t.inst .t16).regs = c.t16.clip s.cfg.t16 ∧ (t.inst .t8a).regs = c.t8a.clip s.cfg.t8a ∧
      (t.inst .t8b).regs = c.t8b.clip s.cfg.t8b ∧ ∀ b, t.isOutput b = (decide (b < s.cfg.gpioW) && c.gpioDir.testBit b)

/-! ### Invariants -/

/-- The invariant holds in the state after reset, and in every state out of reset with well-formed parameters and contents in
range (10_state R54, R32). The register contents of the one state after reset are the model's choice (logs 2, 5, 6). -/
def Obligations.ResetStatesMeetTheInvariant : Prop :=
  State.reset.Inv ∧
  ∀ (cfg : Config) (c : Contents), cfg.WellFormed → c.t16.InRange cfg.t16 → c.t8a.InRange cfg.t8a →
    c.t8b.InRange cfg.t8b → c.gpioDir < 2 ^ cfg.gpioW → (State.ofContents cfg c).Inv

/-- Every step keeps the invariant: registers hold values of their widths, a Busy instance's list is always what is left of an
operation, `GPIO_DIR` has its width (10_state R42, R49, R50). -/
def Obligations.EveryStepKeepsTheInvariant : Prop :=
  ∀ s t : State, s.Inv → step s = .next t → t.Inv

/-- The machine never stops: from every state that meets the invariant, whatever the schedule holds, a step answers a next
state (00_scope R22). -/
def Obligations.TheMachineNeverStops : Prop :=
  ∀ s : State, s.Inv → ∃ t, step s = .next t

/-- No step changes a parameter (00_scope R9). -/
def Obligations.NoStepChangesAParameter : Prop :=
  ∀ s t : State, step s = .next t → t.cfg = s.cfg

/-- An accepted operation is answered and cannot be cancelled: whatever other agents do in between, short of a power cycle, the
instance's turns make its transfers, at most six, and the last of them gives the response held since acceptance
(70_reset R254, R256). -/
def Obligations.AcceptedOperationIsAlwaysAnswered : Prop :=
  ∀ (s : State) (i : InstId) (w : Transfer) (rest : List Transfer) (rsp : Response) (acts later : List Event),
    s.Inv → (s.inst i).cond = .busy w rest rsp → s.schedule = acts ++ .turn i :: later →
    (∀ e ∈ acts, e.isPowerUp = false) → acts.countP (Event.isTurnOf i) = rest.length →
    rest.length + 1 ≤ 6 ∧
    ∃ t, runSteps (acts.length + 1) s = .next t ∧ t.rsp = some (i, rsp) ∧ (t.inst i).cond = .idle ∧ t.schedule = later

/-- `CYCLES`, `REDUCE` at any index and `HALVE` do not decrease in their first argument; so for a CFG.PWM request with
`0 <= on <= period` the raw counts, the counts scaled by the one divider selected, and the two thresholds it configures keep
that order at every stage (40 R131). -/
def Obligations.ScalerNeverReversesTheOrder : Prop :=
  (∀ (c : Config) (t u : Nat), t ≤ u → cycles c t ≤ cycles c u) ∧
  (∀ (p : PeripheralSpec) (idx x y : Nat), x ≤ y → reduce x p idx ≤ reduce y p idx) ∧
  (∀ x y : Nat, x ≤ y → halve x ≤ halve y) ∧
  (∀ (c : Config) (p : PeripheralSpec) (on period : Int) (idx scaled : Nat), 0 ≤ on → on ≤ period →
    divsel (cycles c period.toNat) p = some (idx, scaled) →
    cycles c on.toNat ≤ cycles c period.toNat ∧ reduce (cycles c on.toNat) p idx ≤ scaled ∧
    halve (reduce (cycles c on.toNat) p idx) ≤ halve scaled) ∧
  (∀ (c : Config) (p : PeripheralSpec) (on period : Int) (pin : Option PinId) (ieA ieB : Bool) (cc : CounterConfig)
      (ws : List Transfer), cfgPwm c p on period pin ieA ieB = .done cc ws →
    0 ≤ on ∧ on ≤ period ∧ ∃ idx scaled, divsel (cycles c period.toNat) p = some (idx, scaled) ∧ cc.dividerIndex = idx ∧
      cc.topValue = halve scaled ∧ cc.onValue = some (halve (reduce (cycles c on.toNat) p idx)) ∧
      halve (reduce (cycles c on.toNat) p idx) ≤ cc.topValue)
end

