-- ==== Sys2Proof/Laws/State.lean ====
section
/-! SUPPORT. One lemma for each field after each update of a state, so that no later proof unfolds a record update. -/

namespace Sys2Proof.Machine

/-! ### An instance in place of another -/

@[simp] theorem State.inst_setInst_same (s : State) (i : InstId) (x : Inst) : (s.setInst i x).inst i = x := by
  cases i <;> rfl

theorem State.inst_setInst_other (s : State) (x : Inst) {i j : InstId} (h : j ≠ i) :
    (s.setInst i x).inst j = s.inst j := by
  cases i <;> cases j <;> first | rfl | exact absurd rfl h

theorem State.inst_setInst (s : State) (i j : InstId) (x : Inst) :
    (s.setInst i x).inst j = if j = i then x else s.inst j := by
  by_cases h : j = i
  · subst h; simp
  · rw [if_neg h, State.inst_setInst_other s x h]

@[simp] theorem State.setInst_cfg (s : State) (i : InstId) (x : Inst) : (s.setInst i x).cfg = s.cfg := by cases i <;> rfl
@[simp] theorem State.setInst_gpioDir (s : State) (i : InstId) (x : Inst) : (s.setInst i x).gpioDir = s.gpioDir := by
  cases i <;> rfl
@[simp] theorem State.setInst_rsp (s : State) (i : InstId) (x : Inst) : (s.setInst i x).rsp = s.rsp := by cases i <;> rfl
@[simp] theorem State.setInst_active (s : State) (i : InstId) (x : Inst) : (s.setInst i x).active = s.active := by
  cases i <;> rfl
@[simp] theorem State.setInst_draws (s : State) (i : InstId) (x : Inst) : (s.setInst i x).draws = s.draws := by
  cases i <;> rfl
@[simp] theorem State.setInst_schedule (s : State) (i : InstId) (x : Inst) : (s.setInst i x).schedule = s.schedule := by
  cases i <;> rfl
@[simp] theorem State.setInst_spec (s : State) (i j : InstId) (x : Inst) : (s.setInst i x).spec j = s.spec j := by
  cases i <;> rfl

/-- Replacing an instance twice is replacing it once. -/
@[simp] theorem State.setInst_setInst (s : State) (i : InstId) (x y : Inst) :
    (s.setInst i x).setInst i y = s.setInst i y := by
  cases i <;> rfl

/-- Two replacements of different instances commute. -/
theorem State.setInst_comm (s : State) {i j : InstId} (h : i ≠ j) (x y : Inst) :
    (s.setInst i x).setInst j y = (s.setInst j y).setInst i x := by
  cases i <;> cases j <;> first | rfl | exact absurd rfl h

/-! ### The parts of one instance -/

@[simp] theorem State.setRegs_cfg (s : State) (i : InstId) (r : RegBlock) : (s.setRegs i r).cfg = s.cfg := by
  simp [State.setRegs]
@[simp] theorem State.setRegs_gpioDir (s : State) (i : InstId) (r : RegBlock) : (s.setRegs i r).gpioDir = s.gpioDir := by
  simp [State.setRegs]
@[simp] theorem State.setRegs_rsp (s : State) (i : InstId) (r : RegBlock) : (s.setRegs i r).rsp = s.rsp := by
  simp [State.setRegs]
@[simp] theorem State.setRegs_active (s : State) (i : InstId) (r : RegBlock) : (s.setRegs i r).active = s.active := by
  simp [State.setRegs]
@[simp] theorem State.setRegs_schedule (s : State) (i : InstId) (r : RegBlock) :
    (s.setRegs i r).schedule = s.schedule := by simp [State.setRegs]
@[simp] theorem State.setRegs_spec (s : State) (i j : InstId) (r : RegBlock) : (s.setRegs i r).spec j = s.spec j := by
  simp [State.setRegs]
@[simp] theorem State.setRegs_inst_same (s : State) (i : InstId) (r : RegBlock) :
    (s.setRegs i r).inst i = { s.inst i with regs := r } := by simp [State.setRegs]
theorem State.setRegs_inst_other (s : State) (r : RegBlock) {i j : InstId} (h : j ≠ i) :
    (s.setRegs i r).inst j = s.inst j := State.inst_setInst_other s _ h

@[simp] theorem State.setCond_cfg (s : State) (i : InstId) (c : Condition) : (s.setCond i c).cfg = s.cfg := by
  simp [State.setCond]
@[simp] theorem State.setCond_gpioDir (s : State) (i : InstId) (c : Condition) : (s.setCond i c).gpioDir = s.gpioDir := by
  simp [State.setCond]
@[simp] theorem State.setCond_rsp (s : State) (i : InstId) (c : Condition) : (s.setCond i c).rsp = s.rsp := by
  simp [State.setCond]
@[simp] theorem State.setCond_active (s : State) (i : InstId) (c : Condition) : (s.setCond i c).active = s.active := by
  simp [State.setCond]
@[simp] theorem State.setCond_schedule (s : State) (i : InstId) (c : Condition) :
    (s.setCond i c).schedule = s.schedule := by simp [State.setCond]
@[simp] theorem State.setCond_spec (s : State) (i j : InstId) (c : Condition) : (s.setCond i c).spec j = s.spec j := by
  simp [State.setCond]
@[simp] theorem State.setCond_inst_same (s : State) (i : InstId) (c : Condition) :
    (s.setCond i c).inst i = { s.inst i with cond := c } := by simp [State.setCond]
theorem State.setCond_inst_other (s : State) (c : Condition) {i j : InstId} (h : j ≠ i) :
    (s.setCond i c).inst j = s.inst j := State.inst_setInst_other s _ h

@[simp] theorem State.setWaiting_cfg (s : State) (i : InstId) (q : List Request) : (s.setWaiting i q).cfg = s.cfg := by
  simp [State.setWaiting]
@[simp] theorem State.setWaiting_gpioDir (s : State) (i : InstId) (q : List Request) :
    (s.setWaiting i q).gpioDir = s.gpioDir := by simp [State.setWaiting]
@[simp] theorem State.setWaiting_rsp (s : State) (i : InstId) (q : List Request) : (s.setWaiting i q).rsp = s.rsp := by
  simp [State.setWaiting]
@[simp] theorem State.setWaiting_schedule (s : State) (i : InstId) (q : List Request) :
    (s.setWaiting i q).schedule = s.schedule := by simp [State.setWaiting]
@[simp] theorem State.setWaiting_spec (s : State) (i j : InstId) (q : List Request) :
    (s.setWaiting i q).spec j = s.spec j := by simp [State.setWaiting]
@[simp] theorem State.setWaiting_inst_same (s : State) (i : InstId) (q : List Request) :
    (s.setWaiting i q).inst i = { s.inst i with waiting := q } := by simp [State.setWaiting]
theorem State.setWaiting_inst_other (s : State) (q : List Request) {i j : InstId} (h : j ≠ i) :
    (s.setWaiting i q).inst j = s.inst j := State.inst_setInst_other s _ h

/-! ### Fields outside the instances -/

@[simp] theorem State.setGpioDir_inst (s : State) (v : Nat) (i : InstId) : (s.setGpioDir v).inst i = s.inst i := by cases i <;> rfl
@[simp] theorem State.setGpioDir_spec (s : State) (v : Nat) (i : InstId) : (s.setGpioDir v).spec i = s.spec i := rfl
@[simp] theorem State.setGpioDir_cfg (s : State) (v : Nat) : (s.setGpioDir v).cfg = s.cfg := rfl
@[simp] theorem State.setGpioDir_gpioDir (s : State) (v : Nat) : (s.setGpioDir v).gpioDir = v := rfl
@[simp] theorem State.setGpioDir_rsp (s : State) (v : Nat) : (s.setGpioDir v).rsp = s.rsp := rfl
@[simp] theorem State.setGpioDir_active (s : State) (v : Nat) : (s.setGpioDir v).active = s.active := rfl
@[simp] theorem State.setGpioDir_draws (s : State) (v : Nat) : (s.setGpioDir v).draws = s.draws := rfl
@[simp] theorem State.setGpioDir_schedule (s : State) (v : Nat) : (s.setGpioDir v).schedule = s.schedule := rfl

@[simp] theorem State.setActive_inst (s : State) (a : InstId) (i : InstId) : (s.setActive a).inst i = s.inst i := by cases i <;> rfl
@[simp] theorem State.setActive_spec (s : State) (a : InstId) (i : InstId) : (s.setActive a).spec i = s.spec i := rfl
@[simp] theorem State.setActive_cfg (s : State) (a : InstId) : (s.setActive a).cfg = s.cfg := rfl
@[simp] theorem State.setActive_gpioDir (s : State) (a : InstId) : (s.setActive a).gpioDir = s.gpioDir := rfl
@[simp] theorem State.setActive_rsp (s : State) (a : InstId) : (s.setActive a).rsp = s.rsp := rfl
@[simp] theorem State.setActive_active (s : State) (a : InstId) : (s.setActive a).active = a := rfl
@[simp] theorem State.setActive_draws (s : State) (a : InstId) : (s.setActive a).draws = s.draws := rfl
@[simp] theorem State.setActive_schedule (s : State) (a : InstId) : (s.setActive a).schedule = s.schedule := rfl

@[simp] theorem State.setSchedule_inst (s : State) (l : List Event) (i : InstId) : (s.setSchedule l).inst i = s.inst i := by cases i <;> rfl
@[simp] theorem State.setSchedule_spec (s : State) (l : List Event) (i : InstId) : (s.setSchedule l).spec i = s.spec i := rfl
@[simp] theorem State.setSchedule_cfg (s : State) (l : List Event) : (s.setSchedule l).cfg = s.cfg := rfl
@[simp] theorem State.setSchedule_gpioDir (s : State) (l : List Event) : (s.setSchedule l).gpioDir = s.gpioDir := rfl
@[simp] theorem State.setSchedule_rsp (s : State) (l : List Event) : (s.setSchedule l).rsp = s.rsp := rfl
@[simp] theorem State.setSchedule_active (s : State) (l : List Event) : (s.setSchedule l).active = s.active := rfl
@[simp] theorem State.setSchedule_draws (s : State) (l : List Event) : (s.setSchedule l).draws = s.draws := rfl
@[simp] theorem State.setSchedule_schedule (s : State) (l : List Event) : (s.setSchedule l).schedule = l := rfl

@[simp] theorem State.respond_inst (s : State) (i j : InstId) (r : Response) : (s.respond i r).inst j = s.inst j := by
  cases j <;> rfl
@[simp] theorem State.respond_cfg (s : State) (i : InstId) (r : Response) : (s.respond i r).cfg = s.cfg := rfl
@[simp] theorem State.respond_spec (s : State) (i j : InstId) (r : Response) : (s.respond i r).spec j = s.spec j := rfl
@[simp] theorem State.respond_gpioDir (s : State) (i : InstId) (r : Response) : (s.respond i r).gpioDir = s.gpioDir := rfl
@[simp] theorem State.respond_rsp (s : State) (i : InstId) (r : Response) : (s.respond i r).rsp = some (i, r) := rfl
@[simp] theorem State.respond_active (s : State) (i : InstId) (r : Response) : (s.respond i r).active = s.active := rfl
@[simp] theorem State.respond_schedule (s : State) (i : InstId) (r : Response) :
    (s.respond i r).schedule = s.schedule := rfl

@[simp] theorem State.takeRequest_cfg (s : State) (i : InstId) (q : List Request) : (s.takeRequest i q).cfg = s.cfg := by
  simp [State.takeRequest]
@[simp] theorem State.takeRequest_spec (s : State) (i j : InstId) (q : List Request) :
    (s.takeRequest i q).spec j = s.spec j := by simp [State.takeRequest]
@[simp] theorem State.takeRequest_gpioDir (s : State) (i : InstId) (q : List Request) :
    (s.takeRequest i q).gpioDir = s.gpioDir := by simp [State.takeRequest]
@[simp] theorem State.takeRequest_rsp (s : State) (i : InstId) (q : List Request) : (s.takeRequest i q).rsp = s.rsp := by
  simp [State.takeRequest]
@[simp] theorem State.takeRequest_active (s : State) (i : InstId) (q : List Request) :
    (s.takeRequest i q).active = i := by simp [State.takeRequest]
@[simp] theorem State.takeRequest_schedule (s : State) (i : InstId) (q : List Request) :
    (s.takeRequest i q).schedule = s.schedule := by simp [State.takeRequest]
@[simp] theorem State.takeRequest_inst_same (s : State) (i : InstId) (q : List Request) :
    (s.takeRequest i q).inst i = { s.inst i with waiting := q } := by simp [State.takeRequest]
theorem State.takeRequest_inst_other (s : State) (q : List Request) {i j : InstId} (h : j ≠ i) :
    (s.takeRequest i q).inst j = s.inst j := by
  simp [State.takeRequest, State.setWaiting_inst_other s q h]

/-! ### Between two steps -/

@[simp] theorem State.beginStep_cfg (s : State) : s.beginStep.cfg = s.cfg := rfl
@[simp] theorem State.beginStep_spec (s : State) (i : InstId) : s.beginStep.spec i = s.spec i := rfl
@[simp] theorem State.beginStep_gpioDir (s : State) : s.beginStep.gpioDir = s.gpioDir := rfl
@[simp] theorem State.beginStep_rsp (s : State) : s.beginStep.rsp = none := rfl
@[simp] theorem State.beginStep_schedule (s : State) : s.beginStep.schedule = s.schedule := rfl
@[simp] theorem State.beginStep_active (s : State) : s.beginStep.active = s.active := rfl
theorem State.beginStep_inst (s : State) (i : InstId) :
    s.beginStep.inst i = (s.inst i).letCount (s.spec i) (Config.freeCount s.draws i) := by cases i <;> rfl

@[simp] theorem Inst.letCount_cond (p : PeripheralSpec) (v : Nat) (x : Inst) : (x.letCount p v).cond = x.cond := by
  unfold Inst.letCount; split <;> rfl
@[simp] theorem Inst.letCount_waiting (p : PeripheralSpec) (v : Nat) (x : Inst) :
    (x.letCount p v).waiting = x.waiting := by unfold Inst.letCount; split <;> rfl
theorem Inst.letCount_read (p : PeripheralSpec) (v : Nat) (x : Inst) {id : RegId} (h : id ≠ .cnt) :
    (x.letCount p v).regs.read id = x.regs.read id := by
  unfold Inst.letCount; split
  · cases id <;> first | rfl | exact absurd rfl h
  · rfl
theorem Inst.letCount_stopped (p : PeripheralSpec) (v : Nat) (x : Inst) (h : clocked x.regs = false) :
    x.letCount p v = x := by simp [Inst.letCount, h]
theorem Inst.letCount_cnt_lt (p : PeripheralSpec) (v : Nat) (x : Inst) (h : clocked x.regs = true) :
    (x.letCount p v).regs.cnt < 2 ^ p.width.bits := by
  simp only [Inst.letCount, h, if_true]
  exact Nat.mod_lt _ (Nat.two_pow_pos _)

@[simp] theorem State.beginStep_cond (s : State) (i : InstId) : (s.beginStep.inst i).cond = (s.inst i).cond := by
  rw [State.beginStep_inst, Inst.letCount_cond]
@[simp] theorem State.beginStep_waiting (s : State) (i : InstId) : (s.beginStep.inst i).waiting = (s.inst i).waiting := by
  rw [State.beginStep_inst, Inst.letCount_waiting]
theorem State.beginStep_read (s : State) (i : InstId) {id : RegId} (h : id ≠ .cnt) :
    (s.beginStep.inst i).regs.read id = (s.inst i).regs.read id := by
  rw [State.beginStep_inst, Inst.letCount_read _ _ _ h]

/-! ### Outcomes -/

@[simp] theorem next_inj_iff {s t : State} :
    ((.next s : Host.Outcome State Fault Refusal) = .next t) ↔ s = t :=
  ⟨fun h => by cases h; rfl, fun h => by rw [h]⟩

end Sys2Proof.Machine
end

