-- ==== Sys2Proof/Laws/Operands.lean ====
section
/-! SUPPORT. The arithmetic of the selector and the scaler: cumulative floor division is one division by the product
(10_state R35), and what the scan answers. -/

namespace Sys2Proof.Machine

/-- `floor(...floor(floor(x / f0) / f1).../ fk) = floor(x / (f0 * ... * fk))` (10_state R35). -/
theorem foldl_div_eq_div_prod (fs : List Nat) (x : Nat) : fs.foldl (· / ·) x = x / fs.prod := by
  induction fs generalizing x with
  | nil => simp
  | cons f fs ih => rw [List.foldl_cons, ih, List.prod_cons, Nat.div_div_eq_div_mul]

/-- A product of factors that are all at least 1 is at least 1. -/
theorem one_le_prod_of_one_le (fs : List Nat) (h : ∀ f ∈ fs, 1 ≤ f) : 1 ≤ fs.prod := by
  induction fs with
  | nil => simp
  | cons f fs ih =>
    rw [List.prod_cons]
    exact Nat.mul_pos (h f (by simp)) (ih fun g hg => h g (by simp [hg]))

/-- Every running product is positive (10_state R32 item 4, R35). -/
theorem one_le_cumulative (p : PeripheralSpec) (h : ∀ f ∈ p.steps, 1 ≤ f) (i : Nat) : 1 ≤ cumulative p i :=
  one_le_prod_of_one_le _ fun f hf => h f (List.mem_of_mem_take hf)

/-- What the scan finds: an offset into the factors left whose running quotient is the first to fit. -/
theorem selectFrom_eq_some (m : Nat) (fs : List Nat) (i run idx v : Nat) :
    selectFrom m fs i run = some (idx, v) ↔
      ∃ k, k < fs.length ∧ idx = i + k ∧ v = run / (fs.take (k + 1)).prod ∧ run / (fs.take (k + 1)).prod ≤ m ∧
        ∀ j, j < k → m < run / (fs.take (j + 1)).prod := by
  induction fs generalizing i run with
  | nil => simp [selectFrom]
  | cons f fs ih =>
    by_cases h : run / f ≤ m
    · rw [selectFrom, if_pos h]
      constructor
      · intro e
        simp only [Option.some.injEq, Prod.mk.injEq] at e
        exact ⟨0, by simp, by simp [e.1], by simp [e.2], by simpa using h, by simp⟩
      · rintro ⟨k, -, hi, hv, -, hk⟩
        cases k with
        | zero => simp_all
        | succ k =>
          have := hk 0 (by omega)
          simp at this
          omega
    · rw [selectFrom, if_neg h, ih]
      constructor
      · rintro ⟨k, hlen, hi, hv, hm, hk⟩
        refine ⟨k + 1, by simpa using hlen, by omega, ?_, ?_, ?_⟩
        · rw [List.take_succ_cons, List.prod_cons, ← Nat.div_div_eq_div_mul]; exact hv
        · rw [List.take_succ_cons, List.prod_cons, ← Nat.div_div_eq_div_mul]; exact hm
        · intro j hj
          cases j with
          | zero => simpa using h
          | succ j =>
            rw [List.take_succ_cons, List.prod_cons, ← Nat.div_div_eq_div_mul]
            exact hk j (by omega)
      · rintro ⟨k, hlen, hi, hv, hm, hk⟩
        cases k with
        | zero => simp at hm; omega
        | succ k =>
          rw [List.take_succ_cons, List.prod_cons, ← Nat.div_div_eq_div_mul] at hv hm
          refine ⟨k, by simpa using hlen, by omega, hv, hm, ?_⟩
          intro j hj
          have := hk (j + 1) (by omega)
          rwa [List.take_succ_cons, List.prod_cons, ← Nat.div_div_eq_div_mul] at this

/-- When the scan finds nothing: no running quotient fits. -/
theorem selectFrom_eq_none (m : Nat) (fs : List Nat) (i run : Nat) :
    selectFrom m fs i run = none ↔ ∀ j, j < fs.length → m < run / (fs.take (j + 1)).prod := by
  induction fs generalizing i run with
  | nil => simp [selectFrom]
  | cons f fs ih =>
    by_cases h : run / f ≤ m
    · rw [selectFrom, if_pos h]
      constructor
      · intro e; cases e
      · intro e
        have := e 0 (by simp)
        simp at this
        omega
    · rw [selectFrom, if_neg h, ih]
      constructor
      · intro e j hj
        cases j with
        | zero => simpa using h
        | succ j =>
          rw [List.take_succ_cons, List.prod_cons, ← Nat.div_div_eq_div_mul]
          exact e j (by simpa using hj)
      · intro e j hj
        have := e (j + 1) (by simpa using hj)
        rwa [List.take_succ_cons, List.prod_cons, ← Nat.div_div_eq_div_mul] at this

/-- Every scaled count fits the register: the scan's exit test (40 R126). -/
theorem divsel_le {raw : Nat} {p : PeripheralSpec} {idx v : Nat} (h : divsel raw p = some (idx, v)) :
    idx < p.steps.length ∧ v ≤ p.registerMax := by
  obtain ⟨k, hk, hi, hv, hm, -⟩ := (selectFrom_eq_some _ _ _ _ _ _).mp h
  rw [Nat.zero_add] at hi
  exact ⟨hi ▸ hk, hv ▸ hm⟩

/-- `HALVE(v) = floor(v / 2)` (40 R130). -/
@[simp] theorem halve_eq (v : Nat) : halve v = v / 2 := by simp [halve, Nat.shiftRight_succ]

/-- `CYCLES` does not decrease (40 R131). -/
theorem cycles_mono (c : Config) {t u : Nat} (h : t ≤ u) : cycles c t ≤ cycles c u :=
  Nat.div_le_div_right (Nat.mul_le_mul_right _ h)

/-- `REDUCE` does not decrease (40 R131). -/
theorem reduce_mono (p : PeripheralSpec) (idx : Nat) {x y : Nat} (h : x ≤ y) : reduce x p idx ≤ reduce y p idx := by
  rw [reduce, reduce, foldl_div_eq_div_prod, foldl_div_eq_div_prod]
  exact Nat.div_le_div_right h

/-- `HALVE` does not decrease (40 R131). -/
theorem halve_mono {x y : Nat} (h : x ≤ y) : halve x ≤ halve y := by
  rw [halve_eq, halve_eq]
  exact Nat.div_le_div_right h

/-- The largest register value is below the register's bound. -/
theorem lt_two_pow_of_le_registerMax {p : PeripheralSpec} {v : Nat} (h : v ≤ p.registerMax) : v < 2 ^ p.width.bits := by
  have := Nat.two_pow_pos p.width.bits
  unfold PeripheralSpec.registerMax at h
  omega

/-- A legal pin's direction bit is a bit of `GPIO_DIR` (10_state R31, 42_pwm R164). -/
theorem channelOf_bit_lt {gpioW : Nat} {p : PeripheralSpec} (h : p.pins.Ok gpioW) {pin : Option PinId} {ch : Channel}
    {b : Nat} (hc : channelOf p pin = some (ch, b)) : b < gpioW := by
  obtain ⟨ha, hb, -⟩ := h
  have key : ∀ (q : Option Pin) (id : PinId) (b : Nat), Pin.fits gpioW q = true → pinNamed id q = some b → b < gpioW := by
    intro q id b hq hn
    cases q with
    | none => simp [pinNamed] at hn
    | some q =>
      simp only [pinNamed] at hn
      split at hn
      · simp only [Option.some.injEq] at hn
        simp only [Pin.fits, decide_eq_true_eq] at hq
        omega
      · cases hn
  cases pin with
  | none => simp [channelOf] at hc
  | some id =>
    simp only [channelOf] at hc
    split at hc
    · next b' hn =>
      simp only [Option.some.injEq, Prod.mk.injEq] at hc
      exact hc.2 ▸ key _ _ _ ha hn
    · split at hc
      · next b' hn =>
        simp only [Option.some.injEq, Prod.mk.injEq] at hc
        exact hc.2 ▸ key _ _ _ hb hn
      · cases hc

end Sys2Proof.Machine
end

