-- ==== Sys2Proof/Laws/Flags.lean ====
section
/-! SUPPORT. The control-register values bit by bit and as numbers (43_packer R193 to R197). -/

namespace Sys2Proof.Machine

@[simp] theorem flagBit_getLsbD (b : Bool) (k : Nat) : (flagBit b).getLsbD k = (b && decide (k = 0)) := by
  cases b
  · simp [flagBit]
  · simp only [flagBit, if_true, Bool.true_and]
    show (1#8).getLsbD k = decide (k = 0)
    rw [BitVec.getLsbD_one]
    simp

/-- One flag shifted to its position: bit by bit. -/
theorem flagBit_shiftLeft_getLsbD (b : Bool) (pos : Fin 8) (k : Nat) :
    (flagBit b <<< pos.val).getLsbD k = (b && decide (k = pos.val)) := by
  rw [BitVec.getLsbD_shiftLeft, flagBit_getLsbD]
  have := pos.isLt
  by_cases h : k = pos.val
  · subst h; simp [this]
  · by_cases h' : k < pos.val
    · simp [h, h']
    · have : k - pos.val ≠ 0 := by omega
      simp [h, this]

/-- The mode code shifted to its position: bit by bit. -/
theorem wgmCode_shiftLeft_getLsbD (m : CountMode) (pos : Fin 8) (h : pos.val ≤ 6) (k : Nat) :
    (wgmCode m <<< pos.val).getLsbD k
      = match m with
        | .pwm => decide (k = pos.val)
        | .ctc => decide (k = pos.val + 1) := by
  cases m with
  | pwm => exact (flagBit_shiftLeft_getLsbD true pos k).trans (by simp)
  | ctc =>
    by_cases hk : k < 8
    · have key : ∀ pos k : Fin 8, pos.val ≤ 6 →
          (wgmCode .ctc <<< pos.val).getLsbD k.val = decide (k.val = pos.val + 1) := by decide
      exact key pos ⟨k, hk⟩ h
    · rw [BitVec.getLsbD_of_ge _ _ (by omega)]
      have : k ≠ pos.val + 1 := by omega
      simp [this]

/-- IEN_VALUE bit by bit (43_packer R194). -/
theorem ienValue_getLsbD (l : Layout) (f : PackFlags) (k : Nat) :
    (ienValue l f).getLsbD k = ((f.ieA && decide (k = l.ienAPos.val)) || (f.ieB && decide (k = l.ienBPos.val))) := by
  rw [ienValue, BitVec.getLsbD_or, flagBit_shiftLeft_getLsbD, flagBit_shiftLeft_getLsbD]

/-- MODE_VALUE bit by bit (43_packer R195). -/
theorem modeValue_getLsbD (l : Layout) (h : l.modePos.val ≤ 6) (m : CountMode) (f : PackFlags) (k : Nat) :
    (modeValue l m f).getLsbD k
      = ((match m with
          | .pwm => decide (k = l.modePos.val)
          | .ctc => decide (k = l.modePos.val + 1))
        || (f.ocA && decide (k = l.ocAPos.val)) || (f.ocB && decide (k = l.ocBPos.val))) := by
  rw [modeValue, BitVec.getLsbD_or, BitVec.getLsbD_or, flagBit_shiftLeft_getLsbD, flagBit_shiftLeft_getLsbD,
    wgmCode_shiftLeft_getLsbD m _ h]

/-- IEN_VALUE as a number: for flags at different positions the bits add (43_packer R197). -/
theorem ienValue_toNat (l : Layout) (h : l.ienAPos.val ≠ l.ienBPos.val) (f : PackFlags) :
    (ienValue l f).toNat = (if f.ieA then 2 ^ l.ienAPos.val else 0) + (if f.ieB then 2 ^ l.ienBPos.val else 0) := by
  have key : ∀ (a b : Fin 8) (x y : Bool), a.val ≠ b.val →
      ((flagBit x <<< a.val) ||| (flagBit y <<< b.val)).toNat
        = (if x then 2 ^ a.val else 0) + (if y then 2 ^ b.val else 0) := by decide
  exact key _ _ _ _ h

/-- MODE_VALUE of CFG.CTC as a number (41_ctc R145). -/
theorem modeValue_ctc_toNat (l : Layout) (h : l.modePos.val ≤ 6) (ie : Bool) :
    (modeValue l .ctc (ctcFlags ie)).toNat = 2 * 2 ^ l.modePos.val := by
  have key : ∀ (m a b : Fin 8), m.val ≤ 6 →
      ((wgmCode .ctc <<< m.val) ||| (flagBit false <<< a.val) ||| (flagBit false <<< b.val)).toNat = 2 * 2 ^ m.val := by
    decide +revert
  exact key _ _ _ h

/-- MODE_VALUE of CFG.PWM as a number (42_pwm R166). -/
theorem modeValue_pwm_toNat (l : Layout) (h : l.Ok) (ieA ieB : Bool) (ch : Channel) :
    (modeValue l .pwm (pwmFlags ieA ieB ch)).toNat
      = 2 ^ l.modePos.val + (match ch with
          | .a => 2 ^ l.ocAPos.val
          | .b => 2 ^ l.ocBPos.val) := by
  have keyA : ∀ (m a b : Fin 8), a.val ≠ m.val →
      ((wgmCode .pwm <<< m.val) ||| (flagBit true <<< a.val) ||| (flagBit false <<< b.val)).toNat
        = 2 ^ m.val + 2 ^ a.val := by decide
  have keyB : ∀ (m a b : Fin 8), b.val ≠ m.val →
      ((wgmCode .pwm <<< m.val) ||| (flagBit false <<< a.val) ||| (flagBit true <<< b.val)).toNat
        = 2 ^ m.val + 2 ^ b.val := by decide
  obtain ⟨-, -, ha, -, hb, -, -⟩ := h
  cases ch with
  | a => exact keyA _ _ _ ha
  | b => exact keyB _ _ _ hb

end Sys2Proof.Machine
end

