-- ==== Sys2Proof/Laws/Ops.lean ====
section
/-! SUPPORT. What each shared operation can do, once each: a register write, a transfer, the acceptance of a request, one step of
a write list; and that each keeps what the invariant asks of it. -/

namespace Sys2Proof.Machine

/-! ### Registers -/

/-- An id has its number, and ids 7 and above do not exist (20_memory R71). -/
theorem RegId.ofNumber_number (id : RegId) : RegId.ofNumber id.number = some id := by cases id <;> rfl

theorem RegId.ofNumber_none (n : Nat) (h : 7 ≤ n) : RegId.ofNumber n = none := by
  match n, h with
  | k + 7, _ => rfl

/-- Reading the register just written gives the value, if it fits the register (20_memory R70). -/
theorem RegBlock.read_write_same (r : RegBlock) (id : RegId) (v : Nat) (p : PeripheralSpec) (h : v < 2 ^ id.width p) :
    (r.write id v).read id = v := by
  cases id <;> simp_all [RegBlock.write, RegBlock.read, RegId.width, Nat.mod_eq_of_lt]

/-- Reading any other register gives what it held (20_memory R70). -/
theorem RegBlock.read_write_other (r : RegBlock) (v : Nat) {id id' : RegId} (h : id' ≠ id) :
    (r.write id v).read id' = r.read id' := by
  cases id <;> cases id' <;> first | rfl | exact absurd rfl h

/-- Two writes to one register are the second write. -/
theorem RegBlock.write_write (r : RegBlock) (id : RegId) (u v : Nat) : (r.write id u).write id v = r.write id v := by
  cases id <;> rfl

/-- A control register always holds 8 bits. -/
theorem RegBlock.read_lt_of_control (r : RegBlock) {id : RegId} (p : PeripheralSpec)
    (h : id = .ien ∨ id = .mode ∨ id = .div) : r.read id < 2 ^ id.width p := by
  rcases h with h | h | h <;> subst h <;> exact BitVec.isLt _

/-- A write of a value that fits keeps every register in its range (10_state R42). -/
theorem RegBlock.write_inRange {r : RegBlock} {p : PeripheralSpec} (h : r.InRange p) (id : RegId) (v : Nat)
    (hv : v < 2 ^ id.width p) : (r.write id v).InRange p := by
  intro id'
  by_cases he : id' = id
  · subst he; rw [RegBlock.read_write_same r id' v p hv]; exact hv
  · rw [RegBlock.read_write_other r v he]; exact h id'

/-- Contents cut to the widths are in range (log 13). -/
theorem RegBlock.clip_inRange (p : PeripheralSpec) (r : RegBlock) : (r.clip p).InRange p := by
  intro id
  cases id with
  | ien => exact BitVec.isLt _
  | mode => exact BitVec.isLt _
  | div => exact BitVec.isLt _
  | top => exact Nat.mod_lt _ (Nat.two_pow_pos _)
  | cmpA => exact Nat.mod_lt _ (Nat.two_pow_pos _)
  | cmpB => exact Nat.mod_lt _ (Nat.two_pow_pos _)
  | cnt => exact Nat.mod_lt _ (Nat.two_pow_pos _)

/-- The counter's own movement keeps every register in its range. -/
theorem Inst.letCount_inRange {x : Inst} {p : PeripheralSpec} (h : x.regs.InRange p) (v : Nat) :
    (x.letCount p v).regs.InRange p := by
  cases hc : clocked x.regs with
  | false => rw [Inst.letCount_stopped p v x hc]; exact h
  | true =>
    intro id
    by_cases hid : id = .cnt
    · subst hid; exact Inst.letCount_cnt_lt p v x hc
    · rw [Inst.letCount_read p v x hid]; exact h id

/-- Whether a counter is clocked, DIV alone says. -/
theorem clocked_eq_of_read_div {r r' : RegBlock} (h : r.read .div = r'.read .div) : clocked r = clocked r' := by
  have : r.div = r'.div := BitVec.eq_of_toNat_eq h
  rw [clocked, clocked, this]

/-! ### Blocks and instances left alone -/

theorem RegBlock.SameButCount.refl (r : RegBlock) : r.SameButCount r := ⟨fun _ _ => rfl, fun _ => rfl⟩

theorem RegBlock.SameButCount.trans {a b c : RegBlock} (h : a.SameButCount b) (k : b.SameButCount c) : a.SameButCount c := by
  refine ⟨fun id hid => (k.1 id hid).trans (h.1 id hid), fun hc => ?_⟩
  rw [k.2 ((clocked_eq_of_read_div (h.1 .div (by decide))).trans hc), h.2 hc]

theorem Inst.LeftAlone.refl (x : Inst) : x.LeftAlone x := ⟨rfl, rfl, RegBlock.SameButCount.refl _⟩

theorem Inst.LeftAlone.trans {x y z : Inst} (h : x.LeftAlone y) (k : y.LeftAlone z) : x.LeftAlone z :=
  ⟨k.1.trans h.1, k.2.1.trans h.2.1, h.2.2.trans k.2.2⟩

theorem Inst.LeftAlone.of_eq {x y : Inst} (h : y = x) : x.LeftAlone y := h ▸ Inst.LeftAlone.refl _

theorem Inst.letCount_leftAlone (p : PeripheralSpec) (v : Nat) (x : Inst) : x.LeftAlone (x.letCount p v) :=
  ⟨Inst.letCount_cond p v x, Inst.letCount_waiting p v x,
    fun _ h => Inst.letCount_read p v x h, fun h => by rw [Inst.letCount_stopped p v x h]⟩

/-! ### One transfer -/

@[simp] theorem State.perform_cfg (s : State) (i : InstId) (w : Transfer) : (s.perform i w).cfg = s.cfg := by
  cases w <;> simp [State.perform]
@[simp] theorem State.perform_spec (s : State) (i j : InstId) (w : Transfer) : (s.perform i w).spec j = s.spec j := by
  cases w <;> simp [State.perform]
@[simp] theorem State.perform_rsp (s : State) (i : InstId) (w : Transfer) : (s.perform i w).rsp = s.rsp := by
  cases w <;> simp [State.perform]
@[simp] theorem State.perform_active (s : State) (i : InstId) (w : Transfer) : (s.perform i w).active = s.active := by
  cases w <;> simp [State.perform]
@[simp] theorem State.perform_schedule (s : State) (i : InstId) (w : Transfer) :
    (s.perform i w).schedule = s.schedule := by
  cases w <;> simp [State.perform]
@[simp] theorem State.perform_cond (s : State) (i j : InstId) (w : Transfer) :
    ((s.perform i w).inst j).cond = (s.inst j).cond := by
  cases w with
  | dirSet b => simp [State.perform]
  | regWrite id v =>
    by_cases h : j = i
    · subst h; simp [State.perform]
    · simp [State.perform, State.setRegs_inst_other s _ h]
@[simp] theorem State.perform_waiting (s : State) (i j : InstId) (w : Transfer) :
    ((s.perform i w).inst j).waiting = (s.inst j).waiting := by
  cases w with
  | dirSet b => simp [State.perform]
  | regWrite id v =>
    by_cases h : j = i
    · subst h; simp [State.perform]
    · simp [State.perform, State.setRegs_inst_other s _ h]
theorem State.perform_inst_other (s : State) (w : Transfer) {i j : InstId} (h : j ≠ i) :
    (s.perform i w).inst j = s.inst j := by
  cases w with
  | dirSet b => simp [State.perform]
  | regWrite id v => simp [State.perform, State.setRegs_inst_other s _ h]

/-- The block after a transfer. -/
def Transfer.onRegs (w : Transfer) (r : RegBlock) : RegBlock :=
  match w with
  | .regWrite id v => r.write id v
  | .dirSet _ => r

/-- `GPIO_DIR` after a transfer. -/
def Transfer.onGpio (w : Transfer) (g : Nat) : Nat :=
  match w with
  | .regWrite _ _ => g
  | .dirSet b => g ||| 1 <<< b

@[simp] theorem State.perform_regs_same (s : State) (i : InstId) (w : Transfer) :
    ((s.perform i w).inst i).regs = w.onRegs (s.inst i).regs := by
  cases w <;> simp [State.perform, Transfer.onRegs]
@[simp] theorem State.perform_gpioDir (s : State) (i : InstId) (w : Transfer) :
    (s.perform i w).gpioDir = w.onGpio s.gpioDir := by
  cases w <;> simp [State.perform, Transfer.onGpio]

/-- A transfer in its domain keeps registers in range (10_state R42). -/
theorem Transfer.onRegs_inRange {c : Config} {p : PeripheralSpec} {w : Transfer} {r : RegBlock} (h : r.InRange p)
    (hw : transferOk c p w = true) : (w.onRegs r).InRange p := by
  cases w with
  | dirSet b => exact h
  | regWrite id v => exact RegBlock.write_inRange h id v (by simpa [transferOk] using hw)

/-- A transfer in its domain keeps `GPIO_DIR` in its width (10_state R49). -/
theorem Transfer.onGpio_lt {c : Config} {p : PeripheralSpec} {w : Transfer} {g : Nat} (h : g < 2 ^ c.gpioW)
    (hw : transferOk c p w = true) : w.onGpio g < 2 ^ c.gpioW := by
  cases w with
  | regWrite id v => exact h
  | dirSet b =>
    refine Nat.or_lt_two_pow h ?_
    rw [Nat.one_shiftLeft]
    exact Nat.pow_lt_pow_right (by omega) (by simpa [transferOk] using hw)

/-- A transfer clears no direction bit, and sets at most its own (20_memory R74). -/
theorem Transfer.onGpio_testBit (w : Transfer) (g b : Nat) :
    (w.onGpio g).testBit b = (g.testBit b || match w with
      | .dirSet b' => decide (b = b')
      | .regWrite _ _ => false) := by
  cases w with
  | regWrite id v => simp [Transfer.onGpio]
  | dirSet b' =>
    rw [Transfer.onGpio, Nat.testBit_or, Nat.one_shiftLeft, Nat.testBit_two_pow]
    congr 1
    simp [eq_comm]

/-! ### A list of transfers -/

@[simp] theorem State.performAll_nil (s : State) (i : InstId) : s.performAll i [] = s := rfl
@[simp] theorem State.performAll_cons (s : State) (i : InstId) (w : Transfer) (ws : List Transfer) :
    s.performAll i (w :: ws) = (s.perform i w).performAll i ws := rfl
theorem State.performAll_append (s : State) (i : InstId) (us ws : List Transfer) :
    s.performAll i (us ++ ws) = (s.performAll i us).performAll i ws := by simp [State.performAll]

/-! ### The two ends of an acceptance, and one step of a write list -/

@[simp] theorem continueWith_cfg (i : InstId) (l : List Transfer) (r : Response) (s : State) :
    (continueWith i l r s).cfg = s.cfg := by cases l <;> simp [continueWith]
@[simp] theorem continueWith_spec (i j : InstId) (l : List Transfer) (r : Response) (s : State) :
    (continueWith i l r s).spec j = s.spec j := by cases l <;> simp [continueWith]
@[simp] theorem continueWith_gpioDir (i : InstId) (l : List Transfer) (r : Response) (s : State) :
    (continueWith i l r s).gpioDir = s.gpioDir := by cases l <;> simp [continueWith]
@[simp] theorem continueWith_schedule (i : InstId) (l : List Transfer) (r : Response) (s : State) :
    (continueWith i l r s).schedule = s.schedule := by cases l <;> simp [continueWith]
theorem continueWith_inst_other (l : List Transfer) (r : Response) (s : State) {i j : InstId} (h : j ≠ i) :
    (continueWith i l r s).inst j = s.inst j := by cases l <;> simp [continueWith, State.setCond_inst_other s _ h]
@[simp] theorem continueWith_regs (i j : InstId) (l : List Transfer) (r : Response) (s : State) :
    ((continueWith i l r s).inst j).regs = (s.inst j).regs := by
  by_cases h : j = i
  · subst h; cases l <;> simp [continueWith]
  · rw [continueWith_inst_other l r s h]
@[simp] theorem continueWith_waiting (i j : InstId) (l : List Transfer) (r : Response) (s : State) :
    ((continueWith i l r s).inst j).waiting = (s.inst j).waiting := by
  by_cases h : j = i
  · subst h; cases l <;> simp [continueWith]
  · rw [continueWith_inst_other l r s h]
@[simp] theorem continueWith_cond_same (i : InstId) (l : List Transfer) (r : Response) (s : State) :
    ((continueWith i l r s).inst i).cond = match l with
      | [] => .idle
      | w :: rest => .busy w rest r := by cases l <;> simp [continueWith]
@[simp] theorem continueWith_rsp (i : InstId) (l : List Transfer) (r : Response) (s : State) :
    (continueWith i l r s).rsp = match l with
      | [] => some (i, r)
      | _ :: _ => s.rsp := by cases l <;> simp [continueWith]

@[simp] theorem raiseError_cfg (st : Status) (s : State) : (raiseError st s).cfg = s.cfg := rfl
@[simp] theorem raiseError_gpioDir (st : Status) (s : State) : (raiseError st s).gpioDir = s.gpioDir := rfl
@[simp] theorem raiseError_schedule (st : Status) (s : State) : (raiseError st s).schedule = s.schedule := rfl
@[simp] theorem raiseError_inst (st : Status) (s : State) (i : InstId) : (raiseError st s).inst i = s.inst i := by
  simp [raiseError]
@[simp] theorem raiseError_rsp (st : Status) (s : State) :
    (raiseError st s).rsp = some (s.active, errorResponse st) := rfl

@[simp] theorem enter_error (st : Status) (s : State) : enter (.error st) s = raiseError st s := rfl
@[simp] theorem enter_done (c : CounterConfig) (ws : List Transfer) (s : State) :
    enter (.done c ws) s = continueWith s.active ws (responseOf c) s := rfl
@[simp] theorem enter_cfg (out : OpResult) (s : State) : (enter out s).cfg = s.cfg := by cases out <;> simp
@[simp] theorem enter_spec (out : OpResult) (s : State) (i : InstId) : (enter out s).spec i = s.spec i := by
  simp [State.spec]
@[simp] theorem enter_gpioDir (out : OpResult) (s : State) : (enter out s).gpioDir = s.gpioDir := by cases out <;> simp
@[simp] theorem enter_schedule (out : OpResult) (s : State) : (enter out s).schedule = s.schedule := by
  cases out <;> simp
@[simp] theorem enter_regs (out : OpResult) (s : State) (i : InstId) :
    ((enter out s).inst i).regs = (s.inst i).regs := by cases out <;> simp
@[simp] theorem enter_waiting (out : OpResult) (s : State) (i : InstId) :
    ((enter out s).inst i).waiting = (s.inst i).waiting := by cases out <;> simp
theorem enter_inst_other (out : OpResult) (s : State) {i : InstId} (h : i ≠ s.active) :
    (enter out s).inst i = s.inst i := by
  cases out with
  | error st => simp
  | done c ws => exact continueWith_inst_other _ _ _ h

/-- Everything an acceptance at an `Idle` instance can do (10_state R51). -/
theorem accept_idle (out : OpResult) (s : State) (h : (s.inst s.active).cond = .idle) (hc : s.cfg.OkFor s.active) :
    accept out s = .next (enter out s) := by
  simp only [accept, h, if_pos hc]

/-- An acceptance at a `Busy` instance is held (70_reset R253). -/
theorem accept_busy (out : OpResult) (s : State) {w : Transfer} {rest : List Transfer} {rsp : Response}
    (h : (s.inst s.active).cond = .busy w rest rsp) : accept out s = .next s := by simp [accept, h]

/-- An instance whose spec is not well-formed accepts nothing (10_state R32). -/
theorem accept_illFormed (out : OpResult) (s : State) (h : (s.inst s.active).cond = .idle) (hc : ¬ s.cfg.OkFor s.active) :
    accept out s = .refused .illFormedSpec := by
  simp only [accept, h, if_neg hc]

/-- Everything a transfer step can do, when it answers a next state (10_state R51). -/
theorem makeTransfer_next {i : InstId} {w : Transfer} {rest : List Transfer} {rsp : Response} {s t : State}
    (h : makeTransfer i w rest rsp s = .next t) :
    transferOk s.cfg (s.spec i) w = true ∧
      ¬ (w.writesReg .div = true ∧ rest.any (Transfer.writesReg .mode) = true) ∧
      t = continueWith i rest rsp (s.perform i w) := by
  unfold makeTransfer at h
  split at h
  · cases h
  · next h1 =>
    split at h
    · cases h
    · next h2 => exact ⟨by simpa using h1, by simpa using h2, by simpa using h.symm⟩

/-- A transfer step in its domain and in order answers a next state. -/
theorem makeTransfer_ok {i : InstId} {w : Transfer} (rest : List Transfer) (rsp : Response) {s : State}
    (h : transferOk s.cfg (s.spec i) w = true)
    (ho : w.writesReg .div = true → ∀ x ∈ rest, x.writesReg .mode = false) :
    makeTransfer i w rest rsp s = .next (continueWith i rest rsp (s.perform i w)) := by
  unfold makeTransfer
  rw [if_neg (by simp [h]), if_neg]
  simp only [Bool.and_eq_true, List.any_eq_true, not_and, not_exists]
  intro hd x hx
  simp [ho hd x hx]

end Sys2Proof.Machine
end

