-- ==== Sys2Proof/Laws/Agents.lean ====
section
/-! SUPPORT. What a step can do, said once: which agent acts, and what its act is. -/

namespace Sys2Proof.Machine

/-- A step with an event scheduled handles that event, the counters having moved. -/
theorem step_event {s : State} {e : Event} {later : List Event} (h : s.schedule = e :: later) :
    step s = handleEvent e (s.beginStep.setSchedule later) := by
  simp [step, actStep, h]

/-- A step with nothing scheduled is a turn of an instance with something to do, or nothing. -/
theorem step_unscheduled {s : State} (h : s.schedule = []) :
    step s = match s.nextReady with
      | some i => instanceTurn i s.beginStep
      | none => .next s.beginStep := by
  have e : s.beginStep.nextReady = s.nextReady := by
    have r : ∀ (p : PeripheralSpec) (v : Nat) (x : Inst), (x.letCount p v).ready = x.ready := by
      intro p v x; simp [Inst.ready]
    show (if (s.t16.letCount _ _).ready then some InstId.t16
      else if (s.t8a.letCount _ _).ready then some .t8a else if (s.t8b.letCount _ _).ready then some .t8b else none) = _
    rw [r, r, r]; rfl
  cases hn : s.nextReady <;> simp [step, actStep, h, e, hn]

/-- A turn of a `Busy` instance is a transfer step. -/
theorem instanceTurn_busy {s : State} {i : InstId} {w : Transfer} {rest : List Transfer} {rsp : Response}
    (h : (s.inst i).cond = .busy w rest rsp) : instanceTurn i s = makeTransfer i w rest rsp (s.setActive i) := by
  simp [instanceTurn, h]

/-- A turn of an `Idle` instance with no request presented does nothing. -/
theorem instanceTurn_nothing {s : State} {i : InstId} (h : (s.inst i).cond = .idle) (hw : (s.inst i).waiting = []) :
    instanceTurn i s = .next (s.setActive i) := by
  simp [instanceTurn, h, hw]

/-- A turn of an `Idle` instance with a request presented accepts what EXEC gives for the oldest (10_state R51, 30_encoding
R103). -/
theorem instanceTurn_accept {s : State} {i : InstId} {r : Request} {left : List Request}
    (h : (s.inst i).cond = .idle) (hw : (s.inst i).waiting = r :: left) :
    instanceTurn i s = accept (execRequest s.cfg (s.spec i) r) (s.takeRequest i left) := by
  simp only [instanceTurn, h, hw, execRequest]
  cases hd : decode r with
  | error e => cases e; simp [refuseRequest]
  | ok instr => cases instr <;> simp [exec, execCfgCtc, execCfgPwm]

/-- Everything a turn can do, when it answers a next state (10_state R51): a transfer, an acceptance, or nothing. -/
theorem instanceTurn_next {s t : State} {i : InstId} (h : instanceTurn i s = .next t) :
    (∃ w rest rsp, (s.inst i).cond = .busy w rest rsp ∧ transferOk s.cfg (s.spec i) w = true ∧
      t = continueWith i rest rsp ((s.setActive i).perform i w)) ∨
    ((s.inst i).cond = .idle ∧ (s.inst i).waiting = [] ∧ t = s.setActive i) ∨
    (∃ r left, (s.inst i).cond = .idle ∧ (s.inst i).waiting = r :: left ∧ s.cfg.OkFor i ∧
      t = enter (execRequest s.cfg (s.spec i) r) (s.takeRequest i left)) := by
  cases hc : (s.inst i).cond with
  | busy w rest rsp =>
    rw [instanceTurn_busy hc] at h
    obtain ⟨h1, -, h3⟩ := makeTransfer_next h
    exact .inl ⟨w, rest, rsp, rfl, by simpa using h1, h3⟩
  | idle =>
    cases hw : (s.inst i).waiting with
    | nil =>
      rw [instanceTurn_nothing hc hw] at h
      exact .inr (.inl ⟨rfl, rfl, by simpa using h.symm⟩)
    | cons r left =>
      rw [instanceTurn_accept hc hw] at h
      by_cases ok : s.cfg.OkFor i
      · rw [accept_idle _ _ (by simp [hc]) (by simpa using ok)] at h
        refine .inr (.inr ⟨r, left, rfl, rfl, ok, ?_⟩)
        simpa using h.symm
      · rw [accept_illFormed _ _ (by simp [hc]) (by simpa using ok)] at h
        cases h

/-- A turn changes no parameter. -/
theorem instanceTurn_cfg {s t : State} {i : InstId} (h : instanceTurn i s = .next t) : t.cfg = s.cfg := by
  obtain ⟨w, rest, rsp, -, -, rfl⟩ | ⟨-, -, rfl⟩ | ⟨r, left, -, -, -, rfl⟩ := instanceTurn_next h
  · simp
  · simp
  · simp

/-- A turn uses up no event. -/
theorem instanceTurn_schedule {s t : State} {i : InstId} (h : instanceTurn i s = .next t) : t.schedule = s.schedule := by
  obtain ⟨w, rest, rsp, -, -, rfl⟩ | ⟨-, -, rfl⟩ | ⟨r, left, -, -, -, rfl⟩ := instanceTurn_next h
  · simp
  · simp
  · simp

/-- A turn changes nothing of any other instance (10_state R57). -/
theorem instanceTurn_inst_other {s t : State} {i j : InstId} (h : instanceTurn i s = .next t) (hj : j ≠ i) :
    t.inst j = s.inst j := by
  obtain ⟨w, rest, rsp, -, -, rfl⟩ | ⟨-, -, rfl⟩ | ⟨r, left, -, -, -, rfl⟩ := instanceTurn_next h
  · rw [continueWith_inst_other _ _ _ hj, State.perform_inst_other _ _ hj]; simp
  · simp
  · rw [enter_inst_other _ _ (by simpa using hj), State.takeRequest_inst_other s left hj]

/-- The counters' movement leaves every instance alone. -/
theorem beginStep_leftAlone (s : State) (i : InstId) : (s.inst i).LeftAlone (s.beginStep.inst i) := by
  rw [State.beginStep_inst]
  exact Inst.letCount_leftAlone _ _ _

end Sys2Proof.Machine
end

