-- ==== Sys2Proof/Laws/Assembler.lean ====
section
/-! SUPPORT. What the reader of the textual syntax makes of each part the writer puts down (30_encoding R107). -/

namespace Sys2Proof.Machine

theorem digitValue_digitChar (d : Nat) (h : d < 10) : digitValue d.digitChar = some d := by
  interval_cases d <;> decide

/-- The text does not begin with a digit. -/
def NoDigitAhead (rest : List Char) : Prop := ∀ c r, rest = c :: r → digitValue c = none

/-- The text is at its end or goes on with a comma, as it does after every operand. -/
def OperandEnds (rest : List Char) : Prop := rest = [] ∨ ∃ r, rest = ',' :: r

theorem OperandEnds.noDigitAhead {rest : List Char} (h : OperandEnds rest) : NoDigitAhead rest := by
  rintro c r rfl
  obtain h | ⟨r', h⟩ := h
  · cases h
  · cases h
    decide

/-- Reading the digits of a number takes them all and adds their value. -/
theorem readDigits_toDigits (n v c : Nat) (rest : List Char) :
    ∃ k, 0 < k ∧ readDigits v c (Nat.toDigits 10 n ++ rest) = readDigits (v * 10 ^ k + n) (c + k) rest := by
  induction n using Nat.strongRecOn generalizing v c rest with
  | ind n ih =>
    by_cases h : n < 10
    · refine ⟨1, by omega, ?_⟩
      rw [Nat.toDigits_of_lt_base h]
      simp only [List.cons_append, List.nil_append, readDigits, digitValue_digitChar n h]
      congr 1
      omega
    · rw [Nat.toDigits_of_base_le (by decide) (by omega), List.append_assoc]
      obtain ⟨k, hk, e⟩ := ih (n / 10) (by omega) v c ([(n % 10).digitChar] ++ rest)
      refine ⟨k + 1, by omega, ?_⟩
      rw [e]
      simp only [List.cons_append, List.nil_append, readDigits, digitValue_digitChar (n % 10) (by omega)]
      congr 1
      have : 10 * v * 10 ^ k = v * (10 ^ k * 10) := by ring
      rw [Nat.mul_add, ← Nat.mul_assoc, Nat.pow_succ]
      omega

/-- A number written in decimal is read back. -/
theorem readNumber_repr (n : Nat) {rest : List Char} (h : NoDigitAhead rest) :
    ∃ k, readNumber (n.repr.toList ++ rest) = some (n, k + 1, rest) := by
  obtain ⟨k, hk, e⟩ := readDigits_toDigits n 0 0 rest
  have stop : ∀ v c, readDigits v c rest = (v, c, rest) := by
    intro v c
    cases rest with
    | nil => rfl
    | cons a r => simp [readDigits, h a r rfl]
  refine ⟨k - 1, ?_⟩
  rw [Nat.toList_repr, readNumber, e, stop]
  cases k with
  | zero => omega
  | succ k => simp

/-- A number written in decimal begins with a digit. -/
theorem repr_toList_head (n : Nat) : ∃ c r d, n.repr.toList = c :: r ∧ digitValue c = some d := by
  rw [Nat.toList_repr]
  induction n using Nat.strongRecOn with
  | ind n ih =>
    by_cases h : n < 10
    · rw [Nat.toDigits_of_lt_base h]
      exact ⟨_, _, n, rfl, digitValue_digitChar n h⟩
    · rw [Nat.toDigits_of_base_le (by decide) (by omega)]
      obtain ⟨c, r, d, e, hd⟩ := ih (n / 10) (by omega)
      rw [e]
      exact ⟨c, _, d, rfl, hd⟩

theorem ne_of_digitValue {c e : Char} {d : Nat} (h : digitValue c = some d) (he : digitValue e = none) : c ≠ e := by
  rintro rfl
  rw [he] at h
  cases h

/-- A tick count written in decimal is read back, with its sign (30_encoding R107). -/
theorem readDuration_writeInt (tps : Nat) (t : Int) {rest : List Char} (h : OperandEnds rest) :
    readDuration tps ((writeInt t).toList ++ rest) = some (t, rest) := by
  have magnitude : ∀ n : Nat, readMagnitude tps (n.repr.toList ++ rest) = some (n, rest) := by
    intro n
    obtain ⟨k, e⟩ := readNumber_repr n h.noDigitAhead
    rw [readMagnitude, e]
    obtain rfl | ⟨r, rfl⟩ := h <;> rfl
  unfold writeInt
  split
  · rw [String.toList_append, List.append_assoc]
    show Option.map (fun m => (-(m.1 : Int), m.2)) (readMagnitude tps (t.natAbs.repr.toList ++ rest)) = _
    rw [magnitude, Option.map_some]
    congr 2
    omega
  · obtain ⟨c, r, d, e, hd⟩ := repr_toList_head t.natAbs
    have hm := magnitude t.natAbs
    rw [e] at hm ⊢
    show readDuration tps (c :: (r ++ rest)) = _
    rw [readDuration]
    · rw [show c :: (r ++ rest) = (c :: r) ++ rest from rfl, hm, Option.map_some]
      congr 2
      omega
    · intro rest' h'
      cases h'
      exact ne_of_digitValue hd (by decide) rfl

/-- A flag is read back. -/
theorem readFlag_writeFlag (b : Bool) (rest : List Char) : readFlag ((writeFlag b).toList ++ rest) = some (b, rest) := by
  cases b <;> rfl

/-- A pin, named or not, is read back (30_encoding R107). -/
theorem readPin_writePin (pin : Option PinId) {rest : List Char} (h : OperandEnds rest) :
    readPin ((writePin pin).toList ++ rest) = some (pin, rest) := by
  cases pin with
  | none => rfl
  | some id =>
    obtain ⟨c, r, d, e, hd⟩ := repr_toList_head id.toNat
    obtain ⟨k, hk⟩ := readNumber_repr id.toNat h.noDigitAhead
    have h0 : expectWord "none".toList (id.toNat.repr.toList ++ rest) = none := by
      rw [e]
      show (if 'n' = c then _ else none) = none
      rw [if_neg (ne_of_digitValue hd (by decide)).symm]
    show readPin (id.toNat.repr.toList ++ rest) = _
    rw [readPin, h0]
    dsimp only
    rw [hk]
    have := id.isLt
    simp
    omega

/-- A word just written is found. -/
theorem expectWord_append (w rest : List Char) : expectWord w (w ++ rest) = some rest := by
  induction w with
  | nil => cases rest <;> rfl
  | cons c w ih => simp [expectWord, ih]

/-- Where no space stands, none is skipped. -/
theorem skipSpaces_of_ne {c : Char} (h : c ≠ ' ') (r : List Char) : skipSpaces (c :: r) = c :: r := by
  rw [skipSpaces.eq_def]
  split
  · next e =>
    cases e
    exact absurd rfl h
  · rfl

/-- The comma, the space and the name before an operand are read past. -/
theorem nextOperand_append {name : String} {c : Char} {w : List Char} (hn : name.toList = c :: w) (h : c ≠ ' ')
    (rest : List Char) : nextOperand name (',' :: ' ' :: (name.toList ++ rest)) = some rest := by
  show (some (' ' :: (name.toList ++ rest))).bind _ = _
  rw [Option.bind_some, skipSpaces, hn, List.cons_append, skipSpaces_of_ne h, ← List.cons_append, expectWord_append]

end Sys2Proof.Machine
end

