-- ==== Sys2Proof/Laws/Encoding.lean ====
section
/-! SUPPORT. The fields of an encoded `CTRL` word, and a duration word read and written (00_scope R13, 30_encoding R91). -/

namespace Sys2Proof

/-- `sint` is the two's-complement value of the word (00_scope R13). -/
theorem sint_eq_toInt (v : DurationWord) : sint v = v.toInt := by
  unfold sint
  simp only [BitVec.extractLsb'_toNat, BitVec.toInt_eq_toNat_cond]
  have := v.isLt
  simp [Nat.shiftRight_eq_div_pow]
  split <;> omega

/-- A tick count that fits is read back from the word it is written as (30_encoding R92). -/
theorem sint_ofInt {t : Int} (h : DurationFits t) : sint (BitVec.ofInt 64 t) = t := by
  rw [sint_eq_toInt, BitVec.toInt_ofInt]
  obtain ⟨h1, h2⟩ := h
  apply Int.bmod_eq_of_le <;> omega

/-- Every word holds a tick count that fits (30_encoding R92). -/
theorem durationFits_sint (v : DurationWord) : DurationFits (sint v) := by
  rw [sint_eq_toInt]
  exact ⟨BitVec.le_toInt v, by simpa using BitVec.toInt_lt (x := v)⟩

/-- Writing the count read from a word gives the word. -/
theorem ofInt_sint (v : DurationWord) : BitVec.ofInt 64 (sint v) = v := by rw [sint_eq_toInt]; simp

/-- One bit of `CTRL`, bit by bit. -/
theorem ctrlBit_getLsbD (b : Bool) (k j : Nat) (hk : k < 16) : (ctrlBit b k).getLsbD j = (b && decide (j = k)) := by
  cases b with
  | false => simp [ctrlBit]
  | true =>
    simp only [ctrlBit, if_true, Bool.true_and, BitVec.getLsbD_shiftLeft, BitVec.getLsbD_one]
    by_cases h : j = k
    · subst h; simp [hk]
    · by_cases h' : j < k
      · simp [h, h']
      · have : j - k ≠ 0 := by omega
        simp [h, this]

/-- The encoded `CTRL` word, bit by bit (30_encoding R91). -/
theorem encodeCtrl_getLsbD (m a b : Bool) (pin : Option PinId) (j : Nat) :
    (encodeCtrl m a b pin).getLsbD j
      = ((m && decide (j = 0)) || (a && decide (j = 1)) || (b && decide (j = 2)) || (pin.isSome && decide (j = 3))
        || (decide (8 ≤ j) && (pin.getD 0).getLsbD (j - 8))) := by
  simp only [encodeCtrl, BitVec.getLsbD_or, ctrlBit_getLsbD _ _ _ (by omega : 0 < 16),
    ctrlBit_getLsbD _ _ _ (by omega : 1 < 16), ctrlBit_getLsbD _ _ _ (by omega : 2 < 16),
    ctrlBit_getLsbD _ _ _ (by omega : 3 < 16), BitVec.getLsbD_shiftLeft, BitVec.getLsbD_setWidth]
  congr 1
  by_cases h : 16 ≤ j
  · have : 8 ≤ j - 8 := by omega
    simp [BitVec.getLsbD_of_ge _ _ this]
  · by_cases h8 : j < 8
    · simp [h8, Nat.not_le.mpr h8]
    · simp [show j < 16 by omega, h8, Nat.not_lt.mp h8, show j - 8 < 16 by omega]

@[simp] theorem ctrlMode_encodeCtrl (m a b : Bool) (pin : Option PinId) : ctrlMode (encodeCtrl m a b pin) = m := by
  rw [ctrlMode, encodeCtrl_getLsbD]; simp
@[simp] theorem ctrlIea_encodeCtrl (m a b : Bool) (pin : Option PinId) : ctrlIea (encodeCtrl m a b pin) = a := by
  rw [ctrlIea, encodeCtrl_getLsbD]; simp
@[simp] theorem ctrlIeb_encodeCtrl (m a b : Bool) (pin : Option PinId) : ctrlIeb (encodeCtrl m a b pin) = b := by
  rw [ctrlIeb, encodeCtrl_getLsbD]; simp
@[simp] theorem ctrlPinp_encodeCtrl (m a b : Bool) (pin : Option PinId) :
    ctrlPinp (encodeCtrl m a b pin) = pin.isSome := by
  rw [ctrlPinp, encodeCtrl_getLsbD]; simp
@[simp] theorem ctrlZero_encodeCtrl (m a b : Bool) (pin : Option PinId) : ctrlZero (encodeCtrl m a b pin) = 0 := by
  apply BitVec.eq_of_getLsbD_eq
  intro k hk
  rw [ctrlZero, BitVec.getLsbD_extractLsb', encodeCtrl_getLsbD]
  simp [show ¬ 8 ≤ 4 + k by omega, show 4 + k ≠ 1 by omega, show 4 + k ≠ 2 by omega,
    show 4 + k ≠ 3 by omega]
@[simp] theorem ctrlPin_encodeCtrl (m a b : Bool) (pin : Option PinId) :
    ctrlPin (encodeCtrl m a b pin) = pin.getD 0 := by
  apply BitVec.eq_of_getLsbD_eq
  intro k hk
  rw [ctrlPin, BitVec.getLsbD_extractLsb', encodeCtrl_getLsbD]
  simp [hk, show 8 + k ≠ 1 by omega, show 8 + k ≠ 2 by omega, show 8 + k ≠ 3 by omega]

/-- `ZERO` is zero exactly when the bits 7:4 are. -/
theorem ctrlZero_eq_zero_iff (c : CtrlWord) : ctrlZero c = 0 ↔ ∀ k, 4 ≤ k → k < 8 → c.getLsbD k = false := by
  constructor
  · intro h k h4 h8
    have e : (ctrlZero c).getLsbD (k - 4) = false := by rw [h]; simp
    rw [ctrlZero, BitVec.getLsbD_extractLsb'] at e
    simpa [show k - 4 < 4 by omega, show 4 + (k - 4) = k by omega] using e
  · intro h
    apply BitVec.eq_of_getLsbD_eq
    intro k hk
    rw [ctrlZero, BitVec.getLsbD_extractLsb', h (4 + k) (by omega) (by omega)]
    simp

/-! ### The three ways a record decodes (30_encoding R102) -/

theorem decode_reserved {r : Request} (h : ctrlZero r.ctrl ≠ 0) : decode r = .error .reservedBits := by
  unfold decode; rw [if_pos h]

theorem decode_ctc {r : Request} (h : ctrlZero r.ctrl = 0) (m : ctrlMode r.ctrl = false) :
    decode r = .ok (.cfgCtc (sint r.period) (ctrlIea r.ctrl)) := by
  unfold decode; rw [if_neg (not_not.mpr h), if_pos m]

theorem decode_pwm {r : Request} (h : ctrlZero r.ctrl = 0) (m : ctrlMode r.ctrl = true) :
    decode r = .ok (.cfgPwm (sint r.on) (sint r.period) (if ctrlPinp r.ctrl = true then some (ctrlPin r.ctrl) else none)
      (ctrlIea r.ctrl) (ctrlIeb r.ctrl)) := by
  unfold decode; rw [if_neg (not_not.mpr h), if_neg (by simp [m])]

end Sys2Proof
end

