-- ==== Sys2Proof/Laws/Operations.lean ====
section
/-! SUPPORT. What each configurator returns, said once: its success with the write list written out (41_ctc R145, 42_pwm R166),
and which statuses it can give. -/

namespace Sys2Proof.Machine

/-- The write list of CFG.CTC (41_ctc R145). -/
theorem pack_ctc (l : Layout) (idx : Nat) (f : PackFlags) (top : Nat) :
    pack l .ctc idx f top none none
      = [.regWrite .ien (ienValue l f).toNat, .regWrite .mode (modeValue l .ctc f).toNat, .regWrite .top top,
          .regWrite .div (idx + 1), .regWrite .cnt 0] := rfl

/-- The compare register of a channel (10_state R47). -/
def Channel.compareReg : Channel → RegId
  | .a => .cmpA
  | .b => .cmpB

/-- The write list of CFG.PWM (42_pwm R166). -/
theorem pack_pwm (l : Layout) (idx : Nat) (f : PackFlags) (top : Nat) (ch : Channel) (v b : Nat) :
    pack l .pwm idx f top (some (ch, v)) (some b)
      = [.dirSet b, .regWrite .ien (ienValue l f).toNat, .regWrite .mode (modeValue l .pwm f).toNat, .regWrite .top top,
          .regWrite ch.compareReg v, .regWrite .div (idx + 1)] := by cases ch <;> rfl

/-- When CFG.CTC succeeds, and with what (41_ctc R140). -/
theorem cfgCtc_done {c : Config} {p : PeripheralSpec} {period : Int} {ie : Bool} {cc : CounterConfig} {ws : List Transfer} :
    cfgCtc c p period ie = .done cc ws ↔
      0 ≤ period ∧ rangeOk (cycles c period.toNat) p = true ∧
        ∃ idx scaled, divsel (cycles c period.toNat) p = some (idx, scaled) ∧ cc = ⟨idx, scaled, none⟩ ∧
          ws = pack p.layout .ctc idx (ctcFlags ie) scaled none none := by
  unfold cfgCtc
  split
  · simp; omega
  · next hneg =>
    split
    · simp_all
    · next hr =>
      split
      · simp_all
      · next idx scaled hd =>
        constructor
        · intro h
          cases h
          exact ⟨by omega, by simpa using hr, idx, scaled, hd, rfl, rfl⟩
        · rintro ⟨-, -, idx', scaled', hd', rfl, rfl⟩
          rw [hd] at hd'
          cases hd'
          rfl

/-- When CFG.PWM succeeds, and with what (42_pwm R160). -/
theorem cfgPwm_done {c : Config} {p : PeripheralSpec} {on period : Int} {pin : Option PinId} {ieA ieB : Bool}
    {cc : CounterConfig} {ws : List Transfer} :
    cfgPwm c p on period pin ieA ieB = .done cc ws ↔
      0 ≤ on ∧ on ≤ period ∧ rangeOk (cycles c period.toNat) p = true ∧
        ∃ idx scaled ch b, divsel (cycles c period.toNat) p = some (idx, scaled) ∧ channelOf p pin = some (ch, b) ∧
          cc = ⟨idx, scaled / 2, some (reduce (cycles c on.toNat) p idx / 2)⟩ ∧
          ws = pack p.layout .pwm idx (pwmFlags ieA ieB ch) (scaled / 2)
            (some (ch, reduce (cycles c on.toNat) p idx / 2)) (some b) := by
  unfold cfgPwm
  split
  · simp; omega
  · split
    · simp; omega
    · next h1 h2 =>
      split
      · simp_all
      · next hr =>
        split
        · simp_all
        · next idx scaled hd =>
          split
          · simp_all
          · next ch b hch =>
            constructor
            · intro h
              cases h
              exact ⟨by omega, by omega, by simpa using hr, idx, scaled, ch, b, hd, hch, by simp, by simp⟩
            · rintro ⟨-, -, -, idx', scaled', ch', b', hd', hch', rfl, rfl⟩
              rw [hd] at hd'
              rw [hch] at hch'
              cases hd'
              cases hch'
              simp

/-- The statuses CFG.CTC can end with (60_exceptions R217). -/
theorem cfgCtc_error {c : Config} {p : PeripheralSpec} {period : Int} {ie : Bool} {st : Status}
    (h : cfgCtc c p period ie = .error st) : st = .invalidDuration ∨ st = .rangeExceeded := by
  unfold cfgCtc at h
  split at h
  · cases h; simp
  · split at h
    · cases h; simp
    · split at h <;> cases h; simp

/-- A success of EXEC is a success of the configurator of the decoded operation (30_encoding R103). -/
theorem execRequest_done {c : Config} {p : PeripheralSpec} {r : Request} {cc : CounterConfig} {ws : List Transfer}
    (h : execRequest c p r = .done cc ws) :
    (∃ period ie, decode r = .ok (.cfgCtc period ie) ∧ cfgCtc c p period ie = .done cc ws) ∨
    (∃ on period pin ieA ieB, decode r = .ok (.cfgPwm on period pin ieA ieB) ∧
      cfgPwm c p on period pin ieA ieB = .done cc ws) := by
  unfold execRequest at h
  split at h
  · cases h
  · next period ie hd => exact .inl ⟨period, ie, hd, h⟩
  · next on period pin ieA ieB hd => exact .inr ⟨on, period, pin, ieA, ieB, hd, h⟩

/-- A write list is never empty (10_state R51). -/
theorem execRequest_done_ne_nil {c : Config} {p : PeripheralSpec} {r : Request} {cc : CounterConfig} {ws : List Transfer}
    (h : execRequest c p r = .done cc ws) : ws ≠ [] := by
  obtain ⟨period, ie, -, h⟩ | ⟨on, period, pin, ieA, ieB, -, h⟩ := execRequest_done h
  · obtain ⟨-, -, idx, scaled, -, -, rfl⟩ := cfgCtc_done.mp h
    rw [pack_ctc]
    simp
  · obtain ⟨-, -, -, idx, scaled, ch, b, -, -, -, rfl⟩ := cfgPwm_done.mp h
    rw [pack_pwm]
    simp

/-- What a turn leaves on the response wire: what was on it, or the response of the operation the turn ended, by its last
transfer or by an error at acceptance (10_state R51, 70_reset R255). -/
theorem instanceTurn_rsp {s t : State} {i : InstId} (h : instanceTurn i s = .next t) :
    t.rsp = s.rsp ∨ ∃ rsp, t.rsp = some (i, rsp) ∧
      ((∃ w, (s.inst i).cond = .busy w [] rsp) ∨
        ((s.inst i).cond = .idle ∧ ∃ r left st, (s.inst i).waiting = r :: left ∧
          execRequest s.cfg (s.spec i) r = .error st ∧ rsp = errorResponse st)) := by
  obtain ⟨w, rest, rsp, hc, -, rfl⟩ | ⟨-, -, rfl⟩ | ⟨r, left, hc, hw, -, rfl⟩ := instanceTurn_next h
  · cases rest with
    | nil => exact .inr ⟨rsp, by simp, .inl ⟨w, hc⟩⟩
    | cons w' rest' => exact .inl (by simp)
  · exact .inl rfl
  · cases he : execRequest s.cfg (s.spec i) r with
    | error st => exact .inr ⟨errorResponse st, by simp, .inr ⟨hc, r, left, st, hw, he, rfl⟩⟩
    | done cc ws =>
      cases ws with
      | nil => exact absurd rfl (execRequest_done_ne_nil he)
      | cons w rest => exact .inl (by simp)

end Sys2Proof.Machine
end

