-- ==== Sys2Proof/Laws/PerInstr.lean ====
section
/-! SUPPORT. Statements about every operation as syntax, one lemma for each constructor. -/

namespace Sys2Proof.Laws.EncodingMatchesRow

open Sys2Proof

/-- The row of the operation map an operation belongs to (30_encoding R99). -/
def rowOf : Instr → OpcodeRow
  | .cfgCtc _ _ => ctcRow
  | .cfgPwm _ _ _ _ _ => pwmRow

/-- The `CTRL` word an operation is written as matches its own row and not the other's, and its reserved field is 0
(30_encoding R91, R99). -/
def Statement (i : Instr) : Prop :=
  (rowOf i).matchesCtrl (encode i).ctrl = true ∧
    (∀ row, row = ctcRow ∨ row = pwmRow → row.matchesCtrl (encode i).ctrl = true → row = rowOf i) ∧
    ctrlZero (encode i).ctrl = 0

theorem cfgCtc (period : Int) (ie : Bool) : Statement (.cfgCtc period ie) := by
  have key : ∀ ie : Bool, ctcRow.matchesCtrl (encodeCtrl false ie false none) = true ∧
      pwmRow.matchesCtrl (encodeCtrl false ie false none) = false ∧ ctrlZero (encodeCtrl false ie false none) = 0 := by decide
  obtain ⟨h, hp, hz⟩ := key ie
  refine ⟨h, ?_, hz⟩
  rintro row (rfl | rfl) hm
  · rfl
  · exact absurd (hp.symm.trans hm) (by decide)

theorem cfgPwm (on period : Int) (pin : Option PinId) (ieA ieB : Bool) : Statement (.cfgPwm on period pin ieA ieB) := by
  have key : ∀ (id : BitVec 8) (named a b : Bool),
      (ctrlBit true 0 ||| ctrlBit a 1 ||| ctrlBit b 2 ||| ctrlBit named 3 ||| (id.setWidth 16 <<< 8)) &&& 0x00F1 = 0x0001 ∧
        ctrlZero (ctrlBit true 0 ||| ctrlBit a 1 ||| ctrlBit b 2 ||| ctrlBit named 3 ||| (id.setWidth 16 <<< 8)) = 0 := by
    intro id named a b
    constructor
    · apply BitVec.eq_of_getLsbD_eq
      intro k hk
      cases named <;> cases a <;> cases b <;> simp only [ctrlBit] <;> interval_cases k <;> simp
    · apply BitVec.eq_of_getLsbD_eq
      intro k hk
      cases named <;> cases a <;> cases b <;> simp only [ctrlBit, ctrlZero] <;> interval_cases k <;> simp
  obtain ⟨h, hz⟩ := key (pin.getD 0) pin.isSome ieA ieB
  refine ⟨?_, ?_, hz⟩
  · exact decide_eq_true h
  · rintro row (rfl | rfl) hm
    · exact absurd ((of_decide_eq_true hm).symm.trans h) (by decide)
    · rfl

end Sys2Proof.Laws.EncodingMatchesRow
end

