-- ==== Sys2Proof/Laws/WellFormed.lean ====
section
/-! SUPPORT. The reference configuration is well-formed whatever the open values of T8B are (10_state R32, R38, R39). -/

namespace Sys2Proof

/-- The dividers T8B is given are positive, ascend, start at the first divider and have the number asked for. -/
theorem PeripheralSpec.risingDividers_ok (gap : Nat → Nat) (k d : Nat) (hd : 1 ≤ d) :
    (∀ x ∈ PeripheralSpec.risingDividers gap d k, 1 ≤ x) ∧ ascending (PeripheralSpec.risingDividers gap d k) = true ∧
      (PeripheralSpec.risingDividers gap d k).length = k + 1 ∧
      (PeripheralSpec.risingDividers gap d k).head? = some d := by
  induction k generalizing d with
  | zero => simp [PeripheralSpec.risingDividers, ascending, hd]
  | succ k ih =>
    obtain ⟨hpos, hasc, hlen, hhead⟩ := ih (d + gap k + 1) (by omega)
    refine ⟨?_, ?_, by simp [PeripheralSpec.risingDividers, hlen], by simp [PeripheralSpec.risingDividers]⟩
    · intro x hx
      rw [PeripheralSpec.risingDividers, List.mem_cons] at hx
      rcases hx with rfl | hx
      · exact hd
      · exact hpos x hx
    · rw [PeripheralSpec.risingDividers]
      revert hasc hlen hhead
      generalize PeripheralSpec.risingDividers gap (d + gap k + 1) k = q
      intro hasc hlen hhead
      cases q with
      | nil => simp at hlen
      | cons y ys =>
        simp only [List.head?_cons, Option.some.injEq] at hhead
        simp only [ascending, hasc, Bool.and_true, decide_eq_true_eq]
        omega

/-- The step factors T8B is given after the first are positive and have the number asked for. -/
theorem PeripheralSpec.alternatingSteps_ok (eightFirst : Bool) (k : Nat) :
    (∀ x ∈ PeripheralSpec.alternatingSteps eightFirst k, 1 ≤ x) ∧
      (PeripheralSpec.alternatingSteps eightFirst k).length = k := by
  induction k generalizing eightFirst with
  | zero => simp [PeripheralSpec.alternatingSteps]
  | succ k ih =>
    obtain ⟨hpos, hlen⟩ := ih (!eightFirst)
    refine ⟨?_, by simp [PeripheralSpec.alternatingSteps, hlen]⟩
    intro x hx
    simp only [PeripheralSpec.alternatingSteps, List.mem_cons] at hx
    rcases hx with rfl | hx
    · split <;> omega
    · exact hpos x hx

/-- A system whose T8B has the step and divider sequence the model builds from the open values can be instantiated. -/
theorem Config.reference_wellFormed : Config.reference.WellFormed := by
  intro i
  cases i with
  | t16 => decide
  | t8a => decide
  | t8b =>
    refine ⟨by decide, by decide, ?_⟩
    obtain ⟨hpos, hasc, hlen, hhead⟩ := PeripheralSpec.risingDividers_ok Config.t8bGap Config.t8bExtraSteps.val
      (Config.t8bFirstDivider + 1) (by omega)
    obtain ⟨spos, slen⟩ := PeripheralSpec.alternatingSteps_ok Config.t8bEightFirst Config.t8bExtraSteps.val
    have hlt := Config.t8bExtraSteps.isLt
    refine ⟨⟨?_, ?_, ?_⟩, ⟨hpos, hasc⟩, ⟨?_, ?_⟩, by decide, by decide⟩
    · show (PeripheralSpec.risingDividers _ _ _).length = (_ :: _).length
      rw [hlen, List.length_cons, slen]
    · show 1 ≤ (PeripheralSpec.risingDividers _ _ _).length
      omega
    · show (PeripheralSpec.risingDividers _ _ _).length ≤ 7
      omega
    · intro f hf
      change f ∈ _ :: _ at hf
      rw [List.mem_cons] at hf
      rcases hf with rfl | hf
      · omega
      · exact spos f hf
    · show (_ :: _).head? = (PeripheralSpec.risingDividers _ _ _).head?
      rw [hhead]
      rfl

end Sys2Proof
end

