-- ==== Sys2Proof/Tests/Slice0.lean ====
section
/-! SUPPORT. The model's own tests: the WellFormed smoke, words and values written out from the spec's tables, single steps, and
for each statement with hypotheses a witness that meets them all. -/

namespace Sys2Proof.Tests

open Sys2Proof Sys2Proof.Machine

/-! ### Small states -/

/-- The candidate T8B-84 (10_state R39). -/
def t8b84 : PeripheralSpec := PeripheralSpec.t8bWith [1, 8, 4, 8, 4] [1, 8, 32, 256, 1024]
/-- The candidate T8B-48 (10_state R39). -/
def t8b48 : PeripheralSpec := PeripheralSpec.t8bWith [1, 4, 8, 4, 8] [1, 4, 32, 128, 1024]
/-- An inconsistent spec: the last running product is below the last divider (40 R127). -/
def shortSteps : PeripheralSpec := PeripheralSpec.t8bWith [1, 2] [1, 1024]
/-- A spec of seven dividers, the most there can be (10_state R32 item 2). -/
def sevenDividers : PeripheralSpec :=
  PeripheralSpec.t8bWith [1, 2, 2, 2, 2, 2, 2] [1, 2, 4, 8, 16, 32, 64]
/-- An ill-formed spec: the factors and the dividers start differently (10_state R32 item 4). -/
def badSteps : PeripheralSpec := PeripheralSpec.t8bWith [2, 8] [1, 8]

/-- The reference parameters with a T8B of known sequences. -/
def configWith (t8b : PeripheralSpec) : Config :=
  { fClk := 16000000, tps := 1000000000, gpioW := 8, t16 := PeripheralSpec.t16Reference,
    t8a := PeripheralSpec.t8aReference, t8b := t8b }

/-- Everything idle and 0. -/
def quiet (t8b : PeripheralSpec) : State := State.ofContents (configWith t8b) Contents.zero

/-- The turn is the instance `i`'s. -/
def atInst (t8b : PeripheralSpec) (i : InstId) : State := (quiet t8b).setActive i

/-- A request stands on the port of the instance `i`, and these events are to come. -/
def presented (t8b : PeripheralSpec) (i : InstId) (r : Request) (events : List Event) : State :=
  ((quiet t8b).setWaiting i [r]).setSchedule events

/-- The instance `i` is at these transfers, and these events are to come. -/
def busy (i : InstId) (w : Transfer) (rest : List Transfer) (rsp : Response) (events : List Event) : State :=
  ((quiet t8b84).setCond i (.busy w rest rsp)).setSchedule events

/-- A test of the next state, false where there is none. -/
def nextSatisfies (o : Host.Outcome State Fault Refusal) (p : State → Bool) : Bool :=
  match o with
  | .next t => p t
  | .fault _ => false
  | .refused _ => false

/-- The request of the source's scenario S1 (95 section 2.4, first row). -/
def ctcRequest : Request := ⟨0x0002, 0x00000000003D0900, 0⟩
/-- The request of the source's scenario S3 (95 section 2.5, first row). -/
def pwmRequest : Request := ⟨0x020D, 0x00000000001E8480, 0x00000000000F4240⟩
/-- A request with reserved bit 4 set (95 section 2.5, errors). -/
def badRequest : Request := ⟨0x0219, 0x00000000001E8480, 0x00000000000F4240⟩

/-! ### WellFormed: each check refuses an ill-formed term -/

theorem test_wf_period_too_large : (Instr.cfgCtc (2 ^ 63) true).wf = false := by decide
theorem test_wf_period_too_small : (Instr.cfgCtc (-2 ^ 63 - 1) true).wf = false := by decide
theorem test_wf_on_too_large : (Instr.cfgPwm (2 ^ 63) 0 none true true).wf = false := by decide
theorem test_wf_pwm_period_too_small : (Instr.cfgPwm 0 (-2 ^ 63 - 1) none true true).wf = false := by decide
theorem test_wf_lengths_differ : ¬ (PeripheralSpec.t8bWith [1, 8] [1]).WellFormed 8 := by decide
theorem test_wf_no_divider : ¬ (PeripheralSpec.t8bWith [] []).WellFormed 8 := by decide
theorem test_wf_eight_dividers :
    ¬ (PeripheralSpec.t8bWith [1, 2, 2, 2, 2, 2, 2, 2] [1, 2, 4, 8, 16, 32, 64, 128]).WellFormed 8 := by decide
theorem test_wf_divider_zero : ¬ (PeripheralSpec.t8bWith [0] [0]).DividersOk := by decide
theorem test_wf_dividers_not_ascending : ¬ (PeripheralSpec.t8bWith [1, 8, 8] [1, 8, 8]).WellFormed 8 := by decide
theorem test_wf_step_zero : ¬ (PeripheralSpec.t8bWith [1, 0] [1, 8]).WellFormed 8 := by decide
theorem test_wf_first_step_differs : ¬ badSteps.WellFormed 8 := by decide
theorem test_wf_mode_field_too_high : ¬ ({ Layout.reference with modePos := 7 } : Layout).Ok := by decide
theorem test_wf_connect_bits_equal : ¬ ({ Layout.reference with ocBPos := 5 } : Layout).Ok := by decide
theorem test_wf_connect_in_mode_field : ¬ ({ Layout.reference with ocAPos := 1 } : Layout).Ok := by decide
theorem test_wf_connect_b_in_mode_field : ¬ ({ Layout.reference with ocBPos := 0 } : Layout).Ok := by decide
theorem test_wf_enables_equal : ¬ ({ Layout.reference with ienBPos := 1 } : Layout).Ok := by decide
theorem test_wf_pin_bit_too_high : ¬ (PinMap.mk (some ⟨0, 8⟩) none).Ok 8 := by decide
theorem test_wf_pin_b_bit_too_high : ¬ (PinMap.mk none (some ⟨0, 8⟩)).Ok 8 := by decide
theorem test_wf_pin_ids_equal : ¬ (PinMap.mk (some ⟨0, 0⟩) (some ⟨0, 1⟩)).Ok 8 := by decide
theorem test_wf_pin_bits_equal : ¬ (PinMap.mk (some ⟨0, 1⟩) (some ⟨1, 1⟩)).Ok 8 := by decide
theorem test_wf_clock_zero : ¬ ({ configWith t8b84 with fClk := 0 } : Config).OkFor .t16 := by decide
theorem test_wf_ticks_zero : ¬ ({ configWith t8b84 with tps := 0 } : Config).OkFor .t16 := by decide
theorem test_wf_candidate_passes : t8b84.WellFormed 8 := by decide
theorem test_wf_seven_dividers_pass : sevenDividers.WellFormed 8 := by decide
theorem test_wf_inconsistent_spec_passes : shortSteps.WellFormed 8 := by decide

theorem configWith_wellFormed (p : PeripheralSpec) (h : p.WellFormed 8) : (configWith p).WellFormed := by
  intro i
  cases i with
  | t16 => exact ⟨Nat.le_of_ble_eq_true rfl, Nat.le_of_ble_eq_true rfl, (by decide : PeripheralSpec.t16Reference.WellFormed 8)⟩
  | t8a => exact ⟨Nat.le_of_ble_eq_true rfl, Nat.le_of_ble_eq_true rfl, (by decide : PeripheralSpec.t8aReference.WellFormed 8)⟩
  | t8b => exact ⟨Nat.le_of_ble_eq_true rfl, Nat.le_of_ble_eq_true rfl, h⟩

/-! ### Decoding: words of 30_encoding R91 and 95 section 2.7 -/

theorem test_decode_ctc : decode ⟨0x0000, 0x0000000000989680, 0⟩ = .ok (.cfgCtc 10000000 false) := by decide
theorem test_decode_ctc_ignores : decode ⟨0xFF0E, 0xFFFFFFFFFFFFFFFF, 5⟩ = .ok (.cfgCtc (-1) true) := by decide
theorem test_decode_pwm : decode ⟨0x030B, 0x0000000001312D00, 0x00000000004C4B40⟩
    = .ok (.cfgPwm 5000000 20000000 (some 3) true false) := by decide
theorem test_decode_pwm_no_pin : decode ⟨0x0207, 0, 0x8000000000000000⟩ = .ok (.cfgPwm (-2 ^ 63) 0 none true true) := by
  decide
theorem test_decode_reserved : decode ⟨0x0010, 0, 0⟩ = .error .reservedBits ∧ decode ⟨0x0080, 0, 0⟩ = .error .reservedBits ∧
    decode ⟨0x00F1, 0, 0⟩ = .error .reservedBits := by decide
theorem test_encode_ctc : encode (.cfgCtc 4000000 true) = ctcRequest := by decide
theorem test_encode_pwm : encode (.cfgPwm 1000000 2000000 (some 2) false true) = pwmRequest := by decide
theorem test_table_word_ctc : decodeTableWord 16 0x0002 = some (.cfgCtc 0 true) := by decide
theorem test_table_word_pwm : decodeTableWord 16 0x020D = some (.cfgPwm 0 0 (some 2) false true) := by decide
theorem test_table_word_whole : decodeTableWord 144 ctcRequest.toBits = some (.cfgCtc 4000000 true) := by decide

/-! ### Text (30_encoding R107, R108) -/

theorem test_read_ctc : readLine (configWith t8b84) "T16 CFG.CTC period=0.004s, ie=1" = some (.t16, .cfgCtc 4000000 true) := by
  decide
theorem test_read_pwm : readLine (configWith t8b84) "T16 CFG.PWM on=0, period=-1, pin=2, iea=0, ieb=0"
    = some (.t16, .cfgPwm 0 (-1) (some 2) false false) := by decide
theorem test_read_off_the_tick_grid :
    readLine (configWith t8b84) "T16 CFG.CTC period=0.0000000001s, ie=1" = none := by decide
theorem test_write_response : writeResponse ⟨.ok, 0, 16000, true, 8000⟩ = "-> Ok idx=0 top=16000 on=8000" := by decide

/-! ### Arithmetic (95 sections 2.1 to 2.3) -/

theorem test_cycles : [0, 62, 63, 188, 438, 15937, 15938, 4095938, 4194240063, 2 ^ 63 - 1].map (cycles (configWith t8b84))
    = [0, 0, 1, 3, 7, 254, 255, 65535, 67107841, 147573952589676412] := by decide
theorem test_divsel_8 : [0, 255, 256, 2047, 2048, 16384, 160000, 261121, 262143, 262144].map
      (fun raw => divsel raw PeripheralSpec.t8aReference)
    = [some (0, 0), some (0, 255), some (1, 32), some (1, 255), some (2, 32), some (3, 64), some (4, 156), some (4, 255),
        some (4, 255), none] := by decide
theorem test_divsel_16 : [65535, 65536, 67107840, 67108863, 67108864].map
      (fun raw => divsel raw PeripheralSpec.t16Reference)
    = [some (0, 65535), some (1, 8192), some (4, 65535), some (4, 65535), none] := by decide
theorem test_divsel_irregular : [1000, 8191, 8192, 9000, 70000].map (fun raw => (divsel raw t8b84, divsel raw t8b48))
    = [(some (1, 125), some (1, 250)), (some (2, 255), some (2, 255)), (some (3, 32), some (3, 64)),
        (some (3, 35), some (3, 70)), (some (4, 68), some (4, 68))] := by decide
theorem test_range_ok : rangeOk 261120 PeripheralSpec.t8aReference = true ∧ rangeOk 261121 PeripheralSpec.t8aReference = false ∧
    rangeOk 67107840 PeripheralSpec.t16Reference = true ∧ rangeOk 67107841 PeripheralSpec.t16Reference = false := by decide
theorem test_reduce : reduce 80000 PeripheralSpec.t16Reference 1 = 10000 ∧ reduce 16000 PeripheralSpec.t8aReference 3 = 62 ∧
    reduce 4096 t8b84 3 = 16 := by decide
theorem test_halve : [0, 1, 7, 255, 32000, 65535].map halve = [0, 0, 3, 127, 16000, 32767] := by decide

/-! ### The packer (95 section 2.6), with another layout too -/

/-- The other layout of 95 section 2.6. -/
def otherLayout : Layout := { modePos := 3, ienAPos := 0, ienBPos := 7, ocAPos := 6, ocBPos := 7 }

theorem test_ien_value : ienValue Layout.reference ⟨true, false, false, false⟩ = 0x02 ∧
    ienValue Layout.reference ⟨false, true, false, false⟩ = 0x04 ∧
    ienValue otherLayout ⟨true, true, false, false⟩ = 0x81 := by decide
theorem test_mode_value : modeValue Layout.reference .ctc ⟨true, true, false, false⟩ = 0x02 ∧
    modeValue Layout.reference .pwm ⟨true, true, true, false⟩ = 0x21 ∧
    modeValue Layout.reference .pwm ⟨true, true, false, true⟩ = 0x11 ∧
    modeValue otherLayout .ctc ⟨true, true, false, false⟩ = 0x10 ∧
    modeValue otherLayout .pwm ⟨true, true, true, false⟩ = 0x48 ∧
    modeValue otherLayout .pwm ⟨true, true, false, true⟩ = 0x88 := by decide
theorem test_pack_ctc : pack Layout.reference .ctc 4 ⟨false, false, false, false⟩ 156 none none
    = [.regWrite .ien 0x00, .regWrite .mode 0x02, .regWrite .top 0x9C, .regWrite .div 0x05, .regWrite .cnt 0x00] := by decide
theorem test_pack_pwm : pack Layout.reference .pwm 1 ⟨true, false, false, true⟩ 20000 (some (.b, 5000)) (some 3)
    = [.dirSet 3, .regWrite .ien 0x02, .regWrite .mode 0x11, .regWrite .top 0x4E20, .regWrite .cmpB 0x1388,
        .regWrite .div 0x02] := by decide

/-! ### The two operations (95 sections 2.4 and 2.5) -/

theorem test_ctc_t8b : cfgCtc (configWith t8b84) t8b84 512000 false
    = .done ⟨3, 32, none⟩ [.regWrite .ien 0, .regWrite .mode 2, .regWrite .top 0x20, .regWrite .div 4, .regWrite .cnt 0] := by
  decide
theorem test_ctc_limits : cfgCtc (configWith t8b84) PeripheralSpec.t8aReference 16320063 true = .error .rangeExceeded ∧
    cfgCtc (configWith t8b84) PeripheralSpec.t16Reference (-1) true = .error .invalidDuration := by decide
theorem test_pwm_t8a : cfgPwm (configWith t8b84) PeripheralSpec.t8aReference 1000000 3000000 (some 1) true true
    = .done ⟨3, 93, some 31⟩ [.dirSet 1, .regWrite .ien 6, .regWrite .mode 0x11, .regWrite .top 0x5D, .regWrite .cmpB 0x1F,
        .regWrite .div 4] := by decide
theorem test_pwm_priority : [(2000001, 2000000, some 2), (-1, -2, some 2), (1, -1, some 9),
      (5000000000, 4500000000, some 9), (1, 4500000000, some 9), (1000000, 2000000, some 9), (1000000, 2000000, none)].map
      (fun t => cfgPwm (configWith t8b84) PeripheralSpec.t16Reference t.1 t.2.1 t.2.2 false false)
    = [.error .dutyExceedsPeriod, .error .invalidDuration, .error .invalidDuration, .error .dutyExceedsPeriod,
        .error .rangeExceeded, .error .invalidOutputPin, .error .invalidOutputPin] := by decide

/-! ### Single steps -/

/-- The accepted request starts its write list; the registers are still the old ones (95 program 4, the accept row). -/
theorem test_step_accepts_ctc : nextSatisfies (step (presented t8b84 .t16 ctcRequest [.turn .t16])) (fun t =>
    decide (t.t16.cond = .busy (.regWrite .ien 2) [.regWrite .mode 2, .regWrite .top 0xFA00, .regWrite .div 1, .regWrite .cnt 0]
      ⟨.ok, 0, 64000, false, 0⟩) && decide (t.t16.regs = RegBlock.zero) && decide (t.t16.waiting = [])) = true := by decide
/-- The last transfer of a CFG.PWM gives the response (95 section 2.5, first row). -/
theorem test_step_last_transfer : nextSatisfies
    (step (busy .t16 (.regWrite .div 1) [] ⟨.ok, 0, 16000, true, 8000⟩ [.turn .t16])) (fun t =>
    decide (t.rsp = some (.t16, ⟨.ok, 0, 16000, true, 8000⟩)) && decide (t.t16.cond = .idle) && decide (t.t16.regs.div = 1)) = true := by
  decide
/-- `DirSet` keeps the application's bit 7 (95 program 2, request 1). -/
theorem test_step_dirset : nextSatisfies
    (step ((busy .t16 (.dirSet 2) [.regWrite .div 1] ⟨.ok, 0, 16000, true, 8000⟩ [.turn .t16]).setGpioDir 0x80)) (fun t =>
    decide (t.gpioDir = 0x84) && decide (t.rsp = none)) = true := by decide
/-- A reserved encoding is answered with status 5 (95 program 2, request 6). -/
theorem test_step_bad_request : nextSatisfies (step (presented t8b84 .t16 badRequest [.turn .t16])) (fun t =>
    decide (t.rsp = some (.t16, ⟨.badRequest, 0, 0, false, 0⟩)) && decide (t.t16.cond = .idle)) = true := by decide
/-- The word placed for the next step runs, from the one state after reset (log 10). -/
theorem test_step_fetch_word : nextSatisfies (step (State.reset.withFetchWord 144 ctcRequest.toBits)) (fun t =>
    decide (t.t16.cond ≠ .idle)) = true := by decide

/-! ### Witnesses: for each statement with hypotheses, a state and operands that meet them all, each clause at a boundary -/

/-- A test that answers a next state answers one. -/
theorem next_of_satisfies {o : Host.Outcome State Fault Refusal} {p : State → Bool} (h : nextSatisfies o p = true) :
    ∃ t, o = .next t := by
  cases o with
  | next t => exact ⟨t, rfl⟩
  | fault f => cases h
  | refused r => cases h

/-- CFG.CTC at the largest count T16 accepts (95 section 2.4: raw 67,107,840). -/
def ctcAtLimit : Request := ⟨0x0000, 0x00000000F9FF0600, 0⟩
/-- CFG.PWM of T16 on channel B at the largest count it accepts, duty 100% (95 section 2.5). -/
def pwmAtLimit : Request := ⟨0x0309, 0x00000000F9FF0600, 0x00000000F9FF0600⟩

theorem witness_DecodeOfEncodeIsTheOperation :
    (Instr.cfgCtc (-2 ^ 63) true).wf = true ∧ (Instr.cfgPwm (2 ^ 63 - 1) (-2 ^ 63) (some 255) true true).wf = true := by decide
theorem witness_EncodeOfDecodeKeepsTheUsedFields :
    decode ⟨0xFF0E, 0x8000000000000000, 7⟩ = .ok (.cfgCtc (-2 ^ 63) true) ∧
    decode ⟨0xFF0F, 0, 0x7FFFFFFFFFFFFFFF⟩ = .ok (.cfgPwm (2 ^ 63 - 1) 0 (some 255) true true) ∧
    decode ⟨0xFF07, 0, 0⟩ = .ok (.cfgPwm 0 0 none true true) := by decide
theorem witness_ReadingAWrittenLineGivesTheOperation :
    (configWith t8b84).t16.name = "T16" ∧ (configWith t8b84).t8a.name = "T8A" ∧ (configWith t8b84).t8b.name = "T8B" ∧
    (Instr.cfgPwm (-2 ^ 63) (2 ^ 63 - 1) (some 255) true false).wf = true := by decide
theorem witness_CtcIgnoredFieldsChangeNothing :
    (⟨0xFF0E, 4000000, 5⟩ : Request).ctrl &&& 0x00F1 = 0 ∧ ctcRequest.ctrl &&& 0x00F1 = 0 ∧
    (⟨0xFF0E, 4000000, 5⟩ : Request).ctrl.getLsbD 1 = ctcRequest.ctrl.getLsbD 1 ∧
    (⟨0xFF0E, 4000000, 5⟩ : Request).period = ctcRequest.period := by decide
theorem witness_StepRunsTheDecodedOperation :
    (presented t8b84 .t8b ctcRequest [.turn .t8b, .turn .t16]).schedule = .turn .t8b :: [.turn .t16] ∧
    ((presented t8b84 .t8b ctcRequest [.turn .t8b, .turn .t16]).inst .t8b).cond = .idle ∧
    ((presented t8b84 .t8b ctcRequest [.turn .t8b, .turn .t16]).inst .t8b).waiting = ctcRequest :: [] ∧
    decode ctcRequest = .ok (.cfgCtc 4000000 true) ∧ decodeTableWord 144 pwmRequest.toBits
      = some (.cfgPwm 1000000 2000000 (some 2) false true) := by decide
theorem witness_ExecIsTheAcceptanceOfExecRequest : decode ctcRequest = .ok (.cfgCtc 4000000 true) ∧
    decode pwmRequest = .ok (.cfgPwm 1000000 2000000 (some 2) false true) := by decide
theorem witness_ReservedRequestIsAnsweredBadRequest :
    (presented t8b84 .t16 badRequest [.turn .t16]).schedule = .turn .t16 :: [] ∧ (configWith t8b84).OkFor .t16 ∧
    ((presented t8b84 .t16 badRequest [.turn .t16]).inst .t16).cond = .idle ∧
    ((presented t8b84 .t16 badRequest [.turn .t16]).inst .t16).waiting = badRequest :: [] ∧
    badRequest.ctrl &&& 0x00F0 ≠ 0 := by decide
theorem witness_ReservedRequestIsAnsweredBadRequest_undecodable : ∀ instr, decode ⟨0x0010, 0, 0⟩ ≠ .ok instr := by
  have h : decode ⟨0x0010, 0, 0⟩ = .error .reservedBits := by decide
  intro instr e
  rw [h] at e
  cases e
theorem witness_EmptyScheduleRunsAReadyInstance_someone :
    (presented t8b84 .t8b ctcRequest []).schedule = [] ∧ ((presented t8b84 .t8b ctcRequest []).inst .t8b).ready = true := by decide
theorem witness_EmptyScheduleRunsAReadyInstance_none :
    (quiet t8b84).schedule = [] ∧ ∀ i, ((quiet t8b84).inst i).ready = false :=
  ⟨rfl, fun i => by cases i <;> rfl⟩

/-- CFG.CTC at the limit of a consistent spec. -/
theorem witness_CtcSuccessStartsItsWriteList : (configWith t8b84).OkFor .t16 ∧ ((atInst t8b84 .t16).inst .t16).cond = .idle ∧
    (0 : Int) ≤ 4194240000 ∧ rangeOk (cycles (configWith t8b84) (4194240000 : Int).toNat) PeripheralSpec.t16Reference = true ∧
    divsel (cycles (configWith t8b84) (4194240000 : Int).toNat) PeripheralSpec.t16Reference = some (4, 65535) := by decide
/-- CFG.CTC of period 0 on the irregular candidate. -/
theorem witness_CtcSuccessStartsItsWriteList_zero : (configWith t8b48).OkFor .t8b ∧
    ((atInst t8b48 .t8b).inst .t8b).cond = .idle ∧ (0 : Int) ≤ 0 ∧
    rangeOk (cycles (configWith t8b48) (0 : Int).toNat) t8b48 = true ∧
    divsel (cycles (configWith t8b48) (0 : Int).toNat) t8b48 = some (0, 0) := by decide
/-- Period -1; one count above the limit; in range but no factor fits (an inconsistent spec). -/
theorem witness_CtcChecksFailInOrder : (configWith shortSteps).OkFor .t8b ∧ ((atInst shortSteps .t8b).inst .t8b).cond = .idle ∧
    (-1 : Int) < 0 ∧
    ((0 : Int) ≤ 16320063 ∧ shortSteps.registerMax * maxDivider shortSteps < cycles (configWith shortSteps) (16320063 : Int).toNat) ∧
    ((0 : Int) ≤ 32000 ∧ cycles (configWith shortSteps) (32000 : Int).toNat ≤ shortSteps.registerMax * maxDivider shortSteps ∧
      divsel (cycles (configWith shortSteps) (32000 : Int).toNat) shortSteps = none) := by decide
theorem witness_CtcOperationFromAcceptToResponse :
    (configWith t8b84).OkFor .t16 ∧
    ((presented t8b84 .t16 ctcAtLimit (List.replicate 6 (.turn .t16) ++ [.turn .t8a])).inst .t16).cond = .idle ∧
    ((presented t8b84 .t16 ctcAtLimit (List.replicate 6 (.turn .t16) ++ [.turn .t8a])).inst .t16).waiting = ctcAtLimit :: [] ∧
    decode ctcAtLimit = .ok (.cfgCtc 4194240000 false) ∧ (0 : Int) ≤ 4194240000 ∧
    rangeOk (cycles (configWith t8b84) (4194240000 : Int).toNat) PeripheralSpec.t16Reference = true ∧
    divsel (cycles (configWith t8b84) (4194240000 : Int).toNat) PeripheralSpec.t16Reference = some (4, 65535) := by decide

/-- CFG.PWM at the limit with 100% duty, channel B; and channel A with period 0. -/
theorem witness_PwmSuccessStartsItsWriteList : (configWith t8b84).OkFor .t16 ∧ ((atInst t8b84 .t16).inst .t16).cond = .idle ∧
    (0 : Int) ≤ 4194240000 ∧ (4194240000 : Int) ≤ 4194240000 ∧
    rangeOk (cycles (configWith t8b84) (4194240000 : Int).toNat) PeripheralSpec.t16Reference = true ∧
    divsel (cycles (configWith t8b84) (4194240000 : Int).toNat) PeripheralSpec.t16Reference = some (4, 65535) ∧
    channelOf PeripheralSpec.t16Reference (some 3) = some (.b, 3) ∧
    divsel (cycles (configWith t8b84) (0 : Int).toNat) PeripheralSpec.t16Reference = some (0, 0) ∧
    channelOf PeripheralSpec.t16Reference (some 2) = some (.a, 2) := by decide
/-- On -1; on one tick above period; one count above the limit; no factor fits; no pin named, a pin of another instance. -/
theorem witness_PwmChecksFailInOrder : (configWith shortSteps).OkFor .t8b ∧ ((atInst shortSteps .t8b).inst .t8b).cond = .idle ∧
    ((-1 : Int) < 0 ∨ (0 : Int) < 0) ∧ ((0 : Int) ≤ 1 ∧ (0 : Int) ≤ 0 ∧ (0 : Int) < 1) ∧
    ((0 : Int) ≤ 16320063 ∧ shortSteps.registerMax * maxDivider shortSteps < cycles (configWith shortSteps) (16320063 : Int).toNat) ∧
    ((0 : Int) ≤ 32000 ∧ cycles (configWith shortSteps) (32000 : Int).toNat ≤ shortSteps.registerMax * maxDivider shortSteps ∧
      divsel (cycles (configWith shortSteps) (32000 : Int).toNat) shortSteps = none) ∧
    (cycles (configWith shortSteps) (31938 : Int).toNat ≤ shortSteps.registerMax * maxDivider shortSteps ∧
      divsel (cycles (configWith shortSteps) (31938 : Int).toNat) shortSteps ≠ none ∧
      channelOf shortSteps none = none ∧ channelOf shortSteps (some 2) = none) := by decide
theorem witness_PwmOperationFromAcceptToResponse :
    (configWith t8b84).OkFor .t16 ∧
    ((presented t8b84 .t16 pwmAtLimit (List.replicate 7 (.turn .t16) ++ [])).inst .t16).cond = .idle ∧
    ((presented t8b84 .t16 pwmAtLimit (List.replicate 7 (.turn .t16) ++ [])).inst .t16).waiting = pwmAtLimit :: [] ∧
    decode pwmAtLimit = .ok (.cfgPwm 4194240000 4194240000 (some 3) false false) ∧
    rangeOk (cycles (configWith t8b84) (4194240000 : Int).toNat) PeripheralSpec.t16Reference = true ∧
    divsel (cycles (configWith t8b84) (4194240000 : Int).toNat) PeripheralSpec.t16Reference = some (4, 65535) ∧
    channelOf PeripheralSpec.t16Reference (some 3) = some (.b, 3) := by decide

/-- The canonical sequences are consistent (10_state R34, R38). -/
theorem t16_consistent : Consistent PeripheralSpec.t16Reference := by
  unfold Consistent
  decide
theorem sevenDividers_consistent : Consistent sevenDividers := by
  unfold Consistent
  decide
theorem witness_shortSteps_not_consistent : ¬ Consistent shortSteps := by
  unfold Consistent
  decide

theorem witness_RequestsInRangeStartOnAConsistentSpec : (configWith t8b84).OkFor .t16 ∧ Consistent PeripheralSpec.t16Reference ∧
    ((atInst t8b84 .t16).inst .t16).cond = .idle ∧
    cycles (configWith t8b84) (4194240000 : Int).toNat
      ≤ PeripheralSpec.t16Reference.registerMax * maxDivider PeripheralSpec.t16Reference ∧
    channelOf PeripheralSpec.t16Reference (some 2) ≠ none := ⟨by decide, t16_consistent, by decide, by decide, by decide⟩
theorem witness_ChannelOfThePinNamed : PeripheralSpec.t16Reference.pins.Ok 8 ∧
    PeripheralSpec.t16Reference.pins.pinA = some ⟨2, 2⟩ ∧ PeripheralSpec.t16Reference.pins.pinB = some ⟨3, 3⟩ ∧
    (∀ q, PeripheralSpec.t16Reference.pins.pinA = some q → q.id ≠ 9) ∧
    (∀ q, PeripheralSpec.t16Reference.pins.pinB = some q → q.id ≠ 9) := by
  refine ⟨by decide, rfl, rfl, ?_, ?_⟩ <;> (rintro q h; cases h; decide)
theorem witness_FailureMakesNoTransfer :
    (presented t8b84 .t8a pwmRequest [.turn .t8a]).schedule = .turn .t8a :: [] ∧ (configWith t8b84).OkFor .t8a ∧
    ((presented t8b84 .t8a pwmRequest [.turn .t8a]).inst .t8a).cond = .idle ∧
    ((presented t8b84 .t8a pwmRequest [.turn .t8a]).inst .t8a).waiting = pwmRequest :: [] ∧
    execRequest (configWith t8b84) PeripheralSpec.t8aReference pwmRequest = .error .invalidOutputPin := by decide
/-- Each status an operation can end with (60_exceptions R217). -/
theorem witness_StatusesOfEachOperation :
    execRequest (configWith t8b84) t8b84 ⟨0x0000, 0xFFFFFFFFFFFFFFFF, 0⟩ = .error .invalidDuration ∧
    execRequest (configWith t8b84) t8b84 ⟨0x0000, 0x7FFFFFFFFFFFFFFF, 0⟩ = .error .rangeExceeded ∧
    execRequest (configWith t8b84) t8b84 ⟨0x0009, 0x0000000000000000, 1⟩ = .error .dutyExceedsPeriod ∧
    execRequest (configWith t8b84) t8b84 ⟨0x0001, 0x0000000000000000, 0⟩ = .error .invalidOutputPin ∧
    execRequest (configWith t8b84) t8b84 badRequest = .error .badRequest := by decide
theorem witness_ResponseFitsItsRecord : (configWith sevenDividers).OkFor .t8b ∧
    execRequest (configWith sevenDividers) sevenDividers ⟨0x0000, 0x00000000000F9060, 0⟩
      = .done ⟨6, 255, none⟩ [.regWrite .ien 0, .regWrite .mode 2, .regWrite .top 255, .regWrite .div 7, .regWrite .cnt 0] := by
  decide
theorem witness_IllFormedSpecIsRefused : ¬ (configWith badSteps).OkFor .t8b ∧ ((atInst badSteps .t8b).inst .t8b).cond = .idle ∧
    (atInst badSteps .t8b).active = .t8b := by decide

theorem witness_SelectorClosedForm : (∀ f ∈ t8b84.steps, 1 ≤ f) ∧ divsel 8191 t8b84 = some (2, 255) ∧
    divsel 8192 t8b84 = some (3, 32) ∧ divsel 262144 t8b84 = none ∧ 4 < t8b84.steps.length := by decide
theorem witness_ConsistentSelectorFindsTheSmallestDivider : PeripheralSpec.t16Reference.WellFormed 8 ∧
    Consistent PeripheralSpec.t16Reference ∧ divsel 65536 PeripheralSpec.t16Reference = some (1, 8192) :=
  ⟨by decide, t16_consistent, by decide⟩
theorem witness_RangeTestMakesTheSelectorSucceed : sevenDividers.WellFormed 8 ∧ Consistent sevenDividers ∧
    rangeOk (255 * 64) sevenDividers = true := ⟨by decide, sevenDividers_consistent, by decide⟩
theorem witness_ReduceShrinksInLockStep : (∀ f ∈ t8b48.steps, 1 ≤ f) ∧ divsel 8192 t8b48 = some (3, 64) := by decide
theorem witness_CtcTopFitsTheRegister : t8b84.dividers.length = t8b84.steps.length ∧
    cfgCtc (configWith t8b84) t8b84 512000 false = .done ⟨3, 32, none⟩
      [.regWrite .ien 0, .regWrite .mode 2, .regWrite .top 0x20, .regWrite .div 4, .regWrite .cnt 0] := by decide
theorem witness_PwmOnValueNeverExceedsTop : t8b84.dividers.length = t8b84.steps.length ∧
    cfgPwm (configWith t8b84) t8b84 256000 512000 (some 4) false false = .done ⟨3, 16, some 8⟩
      [.dirSet 4, .regWrite .ien 0, .regWrite .mode 0x21, .regWrite .top 0x10, .regWrite .cmpA 8, .regWrite .div 4] := by decide
/-- Durations one tick apart on the two sides of a clock cycle; 100% duty at the limit; a PWM success. -/
theorem witness_ScalerNeverReversesTheOrder : (62 : Nat) ≤ 63 ∧ (0 : Int) ≤ 4194240000 ∧ (4194240000 : Int) ≤ 4194240000 ∧
    divsel (cycles (configWith t8b84) (4194240000 : Int).toNat) PeripheralSpec.t16Reference = some (4, 65535) ∧
    cfgPwm (configWith t8b84) t8b84 256000 512000 (some 4) false false = .done ⟨3, 16, some 8⟩
      [.dirSet 4, .regWrite .ien 0, .regWrite .mode 0x21, .regWrite .top 0x10, .regWrite .cmpA 8, .regWrite .div 4] := by decide
theorem witness_ConfiguredPeriodNeverOvershoots : (configWith t8b84).OkFor .t16 ∧ Consistent ((configWith t8b84).spec .t16) ∧
    cfgCtc (configWith t8b84) ((configWith t8b84).spec .t16) 20000000 true = .done ⟨1, 40000, none⟩
      [.regWrite .ien 2, .regWrite .mode 2, .regWrite .top 40000, .regWrite .div 2, .regWrite .cnt 0] ∧
    ((configWith t8b84).spec .t16).dividers[1]? = some 8 ∧
    cfgPwm (configWith t8b84) ((configWith t8b84).spec .t16) 188 438 (some 2) false false = .done ⟨0, 3, some 1⟩
      [.dirSet 2, .regWrite .ien 0, .regWrite .mode 0x21, .regWrite .top 3, .regWrite .cmpA 1, .regWrite .div 1] ∧
    ((configWith t8b84).spec .t16).dividers[0]? = some 1 :=
  ⟨by decide, t16_consistent, by decide, by decide, by decide, by decide⟩

theorem witness_PackedFieldsReadBack : otherLayout.Ok ∧ 5 ≠ otherLayout.ienAPos.val ∧ 5 ≠ otherLayout.ienBPos.val ∧
    5 ≠ otherLayout.modePos.val ∧ 5 ≠ otherLayout.modePos.val + 1 ∧ 5 ≠ otherLayout.ocAPos.val ∧
    5 ≠ otherLayout.ocBPos.val := by decide
theorem witness_DividerCodeIsIndexPlusOne : sevenDividers.WellFormed 8 ∧ 6 < sevenDividers.dividers.length ∧ 3 ≤ 7 := by decide
theorem witness_ModeIsWrittenBeforeDiv : pack Layout.reference .ctc 0 ⟨false, false, false, false⟩ 0 none none
      = [.regWrite .ien 0, .regWrite .mode 2, .regWrite .top 0] ++ .regWrite .div 1 :: [.regWrite .cnt 0] ∧
    (Transfer.regWrite .div 1).writesReg .div = true := by decide
theorem witness_EveryTransferFitsItsRegister : (configWith t8b84).OkFor .t16 ∧
    execRequest (configWith t8b84) ((configWith t8b84).spec .t16) ctcAtLimit = .done ⟨4, 65535, none⟩
      [.regWrite .ien 0, .regWrite .mode 2, .regWrite .top 65535, .regWrite .div 5, .regWrite .cnt 0] ∧
    execRequest (configWith t8b84) ((configWith t8b84).spec .t16) pwmAtLimit = .done ⟨4, 32767, some 32767⟩
      [.dirSet 3, .regWrite .ien 0, .regWrite .mode 0x11, .regWrite .top 32767, .regWrite .cmpB 32767, .regWrite .div 5] := by
  decide

theorem witness_RegWriteReplacesOneRegister :
    transferOk (configWith t8b84) PeripheralSpec.t16Reference (.regWrite .top 65535) = true ∧
    transferOk (configWith t8b84) PeripheralSpec.t16Reference (.regWrite .ien 255) = true ∧
    transferOk (configWith t8b84) PeripheralSpec.t16Reference (.regWrite .ien 256) = false ∧
    transferOk (configWith t8b84) PeripheralSpec.t8aReference (.regWrite .top 256) = false ∧ RegId.cmpA ≠ .top ∧
    InstId.t8a ≠ .t16 := by decide
theorem witness_DirSetSetsOneBit : 7 ≠ 2 ∧ ((quiet t8b84).setGpioDir 0x80).isOutput 7 = true := by decide
theorem witness_TurnMakesTheNextTransfer :
    (busy .t16 (.regWrite .div 5) [.regWrite .cnt 0] ⟨.ok, 4, 65535, false, 0⟩ [.turn .t16]).schedule = .turn .t16 :: [] ∧
    ((busy .t16 (.regWrite .div 5) [.regWrite .cnt 0] ⟨.ok, 4, 65535, false, 0⟩ [.turn .t16]).inst .t16).cond
      = .busy (.regWrite .div 5) [.regWrite .cnt 0] ⟨.ok, 4, 65535, false, 0⟩ ∧
    transferOk (configWith t8b84) PeripheralSpec.t16Reference (.regWrite .div 5) = true ∧
    ((Transfer.regWrite .div 5).writesReg .div = true ∧ ∀ x ∈ [Transfer.regWrite .cnt 0], x.writesReg .mode = false) := by decide
theorem witness_BusyInstanceHoldsRequests_present :
    (busy .t16 (.regWrite .cnt 0) [] ⟨.ok, 4, 65535, false, 0⟩ [.present .t16 pwmRequest]).schedule
      = .present .t16 pwmRequest :: [] := rfl
theorem witness_BusyInstanceHoldsRequests_turn :
    ∃ t, step ((busy .t16 (.regWrite .cnt 0) [] ⟨.ok, 4, 65535, false, 0⟩ [.turn .t16]).setWaiting .t16 [pwmRequest]) = .next t :=
  next_of_satisfies (p := fun t => decide (t.t16.waiting = [pwmRequest])) (by decide)
theorem witness_BusyInstanceHoldsRequests_exec :
    (((busy .t16 (.regWrite .cnt 0) [] ⟨.ok, 4, 65535, false, 0⟩ []).setActive .t16).inst .t16).cond
      = .busy (.regWrite .cnt 0) [] ⟨.ok, 4, 65535, false, 0⟩ := rfl

/-- What EXEC gives for the source's scenario S1 (95 section 2.4, first row). -/
theorem exec_ctcRequest : execRequest (configWith t8b84) PeripheralSpec.t16Reference ctcRequest = .done ⟨0, 64000, none⟩
    [.regWrite .ien 2, .regWrite .mode 2, .regWrite .top 0xFA00, .regWrite .div 1, .regWrite .cnt 0] := by decide

/-- `k` at its two ends: nothing made, the whole list made. -/
theorem witness_OperationIsItsWriteListInOrder : (configWith t8b84).OkFor .t16 ∧
    ((presented t8b84 .t16 ctcRequest (List.replicate 6 (.turn .t16) ++ [.outsideDir 3])).inst .t16).cond = .idle ∧
    ((presented t8b84 .t16 ctcRequest (List.replicate 6 (.turn .t16) ++ [.outsideDir 3])).inst .t16).waiting = ctcRequest :: [] ∧
    execRequest (configWith t8b84) PeripheralSpec.t16Reference ctcRequest = .done ⟨0, 64000, none⟩
      [.regWrite .ien 2, .regWrite .mode 2, .regWrite .top 0xFA00, .regWrite .div 1, .regWrite .cnt 0] ∧ 5 ≤ 5 ∧
    (presented t8b84 .t16 ctcRequest (List.replicate (0 + 1) (.turn .t16) ++ [])).schedule
      = List.replicate (0 + 1) (.turn .t16) ++ [] :=
  ⟨by decide, by decide, by decide, exec_ctcRequest, by decide, rfl⟩
theorem witness_RegistersAfterASuccessfulOperation : (configWith t8b84).OkFor .t16 ∧
    execRequest (configWith t8b84) PeripheralSpec.t16Reference pwmRequest = .done ⟨0, 16000, some 8000⟩
      [.dirSet 2, .regWrite .ien 4, .regWrite .mode 0x21, .regWrite .top 16000, .regWrite .cmpA 8000, .regWrite .div 1] := by decide
theorem witness_OperationIsIdempotent : (configWith t8b84).OkFor .t16 ∧
    execRequest (configWith t8b84) PeripheralSpec.t16Reference ctcRequest = .done ⟨0, 64000, none⟩
      [.regWrite .ien 2, .regWrite .mode 2, .regWrite .top 0xFA00, .regWrite .div 1, .regWrite .cnt 0] :=
  ⟨by decide, exec_ctcRequest⟩
/-- Two states that differ in registers and in `GPIO_DIR`. -/
theorem witness_OutcomeDoesNotDependOnRegisters :
    let s := atInst t8b84 .t16
    let s' := ((atInst t8b84 .t16).setGpioDir 0xFF).outsideWrite .t16 .mode 0x21
    s ≠ s' ∧ s.cfg = s'.cfg ∧ s.active = s'.active ∧ (configWith t8b84).OkFor s.active ∧ (s.inst s.active).cond = .idle ∧
      (s'.inst s'.active).cond = .idle ∧ s.rsp = s'.rsp := by decide

theorem witness_TransfersOfTwoInstancesCommute : InstId.t16 ≠ .t8a := by decide
theorem witness_TurnTouchesOnlyItsOwnPeripheral :
    (presented t8b84 .t8a ctcRequest [.turn .t8a]).schedule = .turn .t8a :: [] ∧
    ∃ t, step (presented t8b84 .t8a ctcRequest [.turn .t8a]) = .next t :=
  ⟨rfl, next_of_satisfies (p := fun _ => true) (by decide)⟩
theorem witness_DirectionBitsAreNeverClearedByTheEngine :
    (∀ e later, ((busy .t16 (.dirSet 2) [] ⟨.ok, 0, 0, true, 0⟩ [.turn .t16]).setGpioDir 0x80).schedule = e :: later →
      e.isOwn = true) ∧
    (∃ t, step ((busy .t16 (.dirSet 2) [] ⟨.ok, 0, 0, true, 0⟩ [.turn .t16]).setGpioDir 0x80) = .next t) ∧
    ((busy .t16 (.dirSet 2) [] ⟨.ok, 0, 0, true, 0⟩ [.turn .t16]).setGpioDir 0x80).isOutput 7 = true := by
  refine ⟨?_, next_of_satisfies (p := fun _ => true) (by decide), by decide⟩
  rintro e later h
  cases h
  rfl
theorem witness_OutsideDirectionWriteCanClearABit :
    ((presented t8b84 .t16 ctcRequest [.outsideDir 0]).setGpioDir 0x80).schedule = .outsideDir 0 :: [] ∧
    7 < (configWith t8b84).gpioW ∧ (configWith t8b84).gpioW ≤ 8 := by decide
theorem witness_OutsideWriteChangesOneRegister :
    (presented t8b84 .t16 ctcRequest [.outsideWrite .t16 .top 65536]).schedule = .outsideWrite .t16 .top 65536 :: [] ∧
    RegId.cmpA ≠ .top ∧ RegId.cmpA ≠ .cnt ∧ InstId.t8a ≠ .t16 := by decide
/-- The counter is stopped and another register is written, DIV with a code that starts it. -/
theorem witness_OutsideWriteChangesOneRegister_stopped :
    (presented t8b84 .t16 ctcRequest [.outsideWrite .t16 .div 1]).schedule = .outsideWrite .t16 .div 1 :: [] ∧
    RegId.div ≠ .cnt ∧ clocked ((presented t8b84 .t16 ctcRequest [.outsideWrite .t16 .div 1]).inst .t16).regs = false := by
  decide
/-- A counter that is clocked and one that is not. -/
theorem witness_OnlyClockedCountersMoveByThemselves :
    clocked (((quiet t8b84).outsideWrite .t16 .div 7).inst .t16).regs = true ∧
    clocked (((quiet t8b84).outsideWrite .t16 .div 8).inst .t16).regs = false := by decide
theorem witness_ResponseIsNotKept_transfer :
    (∃ t, step (busy .t16 (.regWrite .div 1) [.regWrite .cnt 0] ⟨.ok, 0, 0, false, 0⟩ [.turn .t16]) = .next t) ∧
    ((busy .t16 (.regWrite .div 1) [.regWrite .cnt 0] ⟨.ok, 0, 0, false, 0⟩ [.turn .t16]).inst .t16).cond
      = .busy (.regWrite .div 1) [.regWrite .cnt 0] ⟨.ok, 0, 0, false, 0⟩ :=
  ⟨next_of_satisfies (p := fun _ => true) (by decide), rfl⟩
/-- A last transfer gives its response; so does a refused request; the first with an empty schedule. -/
theorem witness_ResponseIsNotKept_ended :
    (nextSatisfies (step (busy .t16 (.regWrite .cnt 0) [] ⟨.ok, 0, 64000, false, 0⟩ []))
      (fun t => decide (t.rsp = some (.t16, ⟨.ok, 0, 64000, false, 0⟩)))) = true ∧
    (nextSatisfies (step (presented t8b84 .t8a pwmRequest [.turn .t8a]))
      (fun t => decide (t.rsp = some (.t8a, ⟨.invalidOutputPin, 0, 0, false, 0⟩)))) = true := by decide
theorem witness_ResponseIsNotKept_accept :
    (∃ t, step (presented t8b84 .t16 ctcRequest [.turn .t16]) = .next t) ∧
    ((presented t8b84 .t16 ctcRequest [.turn .t16]).inst .t16).cond = .idle ∧
    ((presented t8b84 .t16 ctcRequest [.turn .t16]).inst .t16).waiting = ctcRequest :: [] ∧
    ∃ cc ws, execRequest (configWith t8b84) PeripheralSpec.t16Reference ctcRequest = .done cc ws :=
  ⟨next_of_satisfies (p := fun _ => true) (by decide), by decide, by decide, _, _, exec_ctcRequest⟩
theorem witness_ResponseIsNotKept_unscheduled :
    (∃ t, step (quiet t8b84) = .next t) ∧ (quiet t8b84).schedule = [] ∧ ∀ i, ((quiet t8b84).inst i).ready = false :=
  ⟨next_of_satisfies (p := fun _ => true) (by decide), rfl, fun i => by cases i <;> rfl⟩
theorem witness_ResponseIsNotKept_unscheduled_transfer :
    (∃ t, step (busy .t16 (.regWrite .div 1) [.regWrite .cnt 0] ⟨.ok, 0, 0, false, 0⟩ []) = .next t) ∧
    (busy .t16 (.regWrite .div 1) [.regWrite .cnt 0] ⟨.ok, 0, 0, false, 0⟩ []).nextReady = some .t16 ∧
    ((busy .t16 (.regWrite .div 1) [.regWrite .cnt 0] ⟨.ok, 0, 0, false, 0⟩ []).inst .t16).cond
      = .busy (.regWrite .div 1) [.regWrite .cnt 0] ⟨.ok, 0, 0, false, 0⟩ :=
  ⟨next_of_satisfies (p := fun _ => true) (by decide), by decide, rfl⟩
theorem witness_ResponseIsNotKept_unscheduled_accept :
    (∃ t, step (presented t8b84 .t16 ctcRequest []) = .next t) ∧ (presented t8b84 .t16 ctcRequest []).nextReady = some .t16 ∧
    ((presented t8b84 .t16 ctcRequest []).inst .t16).waiting = ctcRequest :: [] :=
  ⟨next_of_satisfies (p := fun _ => true) (by decide), by decide, by decide⟩
theorem witness_ResponseIsNotKept_idle :
    (∃ t, step ((quiet t8b84).setSchedule [.turn .t8b]) = .next t) ∧ ((quiet t8b84).inst .t8b).cond = .idle ∧
    ((quiet t8b84).inst .t8b).waiting = [] := ⟨next_of_satisfies (p := fun _ => true) (by decide), rfl, rfl⟩
theorem witness_ResponseIsNotKept_outside :
    (∃ t, step (((quiet t8b84).respond .t16 ⟨.ok, 0, 0, false, 0⟩).setSchedule [.outsideDir 5]) = .next t) ∧
    ∀ i, (Event.outsideDir 5).isTurnOf i = false := ⟨next_of_satisfies (p := fun _ => true) (by decide), fun _ => rfl⟩
theorem witness_PowerUpMakesEveryInstanceIdle :
    (busy .t16 (.regWrite .cnt 0) [] ⟨.ok, 0, 0, false, 0⟩ [.powerUp { Contents.zero with gpioDir := 0x1FF }]).schedule
      = .powerUp { Contents.zero with gpioDir := 0x1FF } :: [] := rfl

/-! Witnesses about the invariant. -/

theorem zero_inRange (p : PeripheralSpec) : RegBlock.zero.InRange p := by
  intro id
  have h : RegBlock.zero.read id = 0 := by cases id <;> rfl
  rw [h]
  exact Nat.two_pow_pos _

/-- A state in the middle of the source's scenario S1 meets the invariant: two transfers are made, three are left. -/
theorem busy_meets_invariant (events : List Event) :
    (busy .t16 (.regWrite .top 0xFA00) [.regWrite .div 1, .regWrite .cnt 0] ⟨.ok, 0, 64000, false, 0⟩ events).Inv := by
  refine ⟨configWith_wellFormed t8b84 test_wf_candidate_passes, ?_, ?_, Nat.two_pow_pos _⟩
  · intro i
    cases i <;> exact zero_inRange _
  · intro i
    cases i with
    | t16 => exact ⟨ctcRequest, ⟨0, 64000, none⟩, [.regWrite .ien 2, .regWrite .mode 2], exec_ctcRequest, rfl⟩
    | t8a => trivial
    | t8b => trivial

theorem witness_ResetStatesMeetTheInvariant : (configWith t8b84).WellFormed ∧
    ({ RegBlock.zero with top := 65535, cnt := 65535 } : RegBlock).InRange PeripheralSpec.t16Reference ∧
    RegBlock.zero.InRange PeripheralSpec.t8aReference ∧ RegBlock.zero.InRange t8b84 ∧ 255 < 2 ^ (configWith t8b84).gpioW := by
  refine ⟨configWith_wellFormed t8b84 test_wf_candidate_passes, ?_, zero_inRange _, zero_inRange _, by decide⟩
  intro id
  cases id <;> decide
theorem witness_EveryStepKeepsTheInvariant : ∃ s t : State, s.Inv ∧ step s = .next t := by
  obtain ⟨t, h⟩ := next_of_satisfies (o := step (busy .t16 (.regWrite .top 0xFA00) [.regWrite .div 1, .regWrite .cnt 0]
    ⟨.ok, 0, 64000, false, 0⟩ [.turn .t16])) (p := fun _ => true) (by decide)
  exact ⟨_, t, busy_meets_invariant _, h⟩
theorem witness_TheMachineNeverStops :
    (busy .t16 (.regWrite .top 0xFA00) [.regWrite .div 1, .regWrite .cnt 0] ⟨.ok, 0, 64000, false, 0⟩ [.outsideDir 5]).Inv :=
  busy_meets_invariant _
theorem witness_NoStepChangesAParameter : ∃ t, step (presented t8b84 .t16 pwmRequest [.turn .t16]) = .next t :=
  next_of_satisfies (p := fun _ => true) (by decide)
/-- Other agents act between the instance's turns: another instance, other code, the host. -/
theorem witness_AcceptedOperationIsAlwaysAnswered :
    let acts : List Event := [.turn .t8a, .turn .t16, .outsideWrite .t16 .mode 0, .present .t16 pwmRequest, .turn .t16]
    let s := busy .t16 (.regWrite .top 0xFA00) [.regWrite .div 1, .regWrite .cnt 0] ⟨.ok, 0, 64000, false, 0⟩
      (acts ++ .turn .t16 :: [.turn .t8b])
    s.Inv ∧ (s.inst .t16).cond = .busy (.regWrite .top 0xFA00) [.regWrite .div 1, .regWrite .cnt 0] ⟨.ok, 0, 64000, false, 0⟩ ∧
      s.schedule = acts ++ .turn .t16 :: [.turn .t8b] ∧ (∀ e ∈ acts, e.isPowerUp = false) ∧
      acts.countP (Event.isTurnOf .t16) = [Transfer.regWrite .div 1, .regWrite .cnt 0].length :=
  ⟨busy_meets_invariant _, rfl, rfl, by decide, by decide⟩

end Sys2Proof.Tests
end

section
/-! PROOFS. The write list of an operation: its two shapes, that each of its transfers is in its domain and in order, and that
making it twice is making it once (20_memory R70, R72, R74, R80; 43_packer R190). -/

namespace Sys2Proof.Machine

/-! ### The shapes of a write list -/

/-- The scaled count is the raw count through the step factors up to the index found (40 R124, R129). -/
theorem divsel_eq_reduce {raw : Nat} {p : PeripheralSpec} {idx v : Nat} (h : divsel raw p = some (idx, v)) :
    v = reduce raw p idx := by
  obtain ⟨k, -, hi, hv, -⟩ := (selectFrom_eq_some _ _ _ _ _ _).mp h
  rw [Nat.zero_add] at hi
  rw [reduce, foldl_div_eq_div_prod, hi, hv]

/-- On a well-formed spec the divider code fits the register DIV (10_state R32 item 2, 43_packer R193). -/
theorem divsel_code_lt {gpioW raw : Nat} {p : PeripheralSpec} (wf : p.WellFormed gpioW) {idx v : Nat}
    (h : divsel raw p = some (idx, v)) : idx + 1 < 2 ^ 8 := by
  obtain ⟨⟨hlen, -, hmax⟩, -⟩ := wf
  have hidx := (divsel_le h).1
  omega

/-- The two shapes a write list has (41_ctc R145, 42_pwm R166), each operand with the bound its register or bit puts on it. -/
inductive IsWriteList (c : Config) (p : PeripheralSpec) : List Transfer → Prop where
  | ctc (ien mode : Reg8) {top code : Nat} (htop : top ≤ p.registerMax) (hcode : code < 2 ^ 8) :
    IsWriteList c p
      [.regWrite .ien ien.toNat, .regWrite .mode mode.toNat, .regWrite .top top, .regWrite .div code, .regWrite .cnt 0]
  | pwm (ien mode : Reg8) (ch : Channel) {bit top on code : Nat} (hbit : bit < c.gpioW) (htop : top ≤ p.registerMax)
      (hon : on ≤ p.registerMax) (hcode : code < 2 ^ 8) :
    IsWriteList c p
      [.dirSet bit, .regWrite .ien ien.toNat, .regWrite .mode mode.toNat, .regWrite .top top, .regWrite ch.compareReg on,
        .regWrite .div code]

/-- Every success of EXEC on a well-formed spec has a write list of one of the two shapes (30_encoding R103). -/
theorem isWriteList_of_execRequest {c : Config} {p : PeripheralSpec} (wf : p.WellFormed c.gpioW) {r : Request}
    {cc : CounterConfig} {ws : List Transfer} (h : execRequest c p r = .done cc ws) : IsWriteList c p ws := by
  obtain ⟨period, ie, -, h⟩ | ⟨on, period, pin, ieA, ieB, -, h⟩ := execRequest_done h
  · obtain ⟨-, -, idx, scaled, hd, -, rfl⟩ := cfgCtc_done.mp h
    rw [pack_ctc]
    exact .ctc _ _ (divsel_le hd).2 (divsel_code_lt wf hd)
  · obtain ⟨-, hle, -, idx, scaled, ch, bit, hd, hch, -, rfl⟩ := cfgPwm_done.mp h
    have hscaled : scaled ≤ p.registerMax := (divsel_le hd).2
    have hon : reduce (cycles c on.toNat) p idx ≤ scaled := by
      rw [divsel_eq_reduce hd]
      exact reduce_mono p idx (cycles_mono c (Int.toNat_le_toNat hle))
    have hcode := divsel_code_lt wf hd
    obtain ⟨-, -, -, -, hpins⟩ := wf
    rw [pack_pwm]
    exact .pwm _ _ ch (channelOf_bit_lt hpins hch) (by omega) (by omega) hcode

/-! ### Each transfer is in its domain and in order -/

@[simp] theorem Channel.compareReg_width (p : PeripheralSpec) (ch : Channel) :
    ch.compareReg.width p = p.width.bits := by cases ch <;> rfl

theorem transferOk_regWrite (c : Config) (p : PeripheralSpec) (id : RegId) (v : Nat) :
    transferOk c p (.regWrite id v) = true ↔ v < 2 ^ id.width p := decide_eq_true_iff
theorem transferOk_dirSet (c : Config) (p : PeripheralSpec) (b : Nat) :
    transferOk c p (.dirSet b) = true ↔ b < c.gpioW := decide_eq_true_iff

/-- Every transfer of a write list meets its precondition (20_memory R72). -/
theorem IsWriteList.inDomain {c : Config} {p : PeripheralSpec} {ws : List Transfer} (h : IsWriteList c p ws) :
    ∀ w ∈ ws, transferOk c p w = true := by
  cases h with
  | ctc ien mode htop hcode =>
    simp only [List.forall_mem_cons, transferOk_regWrite]
    exact ⟨ien.isLt, mode.isLt, lt_two_pow_of_le_registerMax htop, hcode, Nat.two_pow_pos _, by simp⟩
  | pwm ien mode ch hbit htop hon hcode =>
    simp only [List.forall_mem_cons, transferOk_regWrite, transferOk_dirSet, Channel.compareReg_width]
    exact ⟨hbit, ien.isLt, mode.isLt, lt_two_pow_of_le_registerMax htop, lt_two_pow_of_le_registerMax hon, hcode, by simp⟩

/-- No write of MODE stands after the write of DIV (43_packer R190, 93 U3). -/
theorem IsWriteList.modeBeforeDiv {c : Config} {p : PeripheralSpec} {ws : List Transfer} (h : IsWriteList c p ws) :
    ws.Pairwise fun w x => w.writesReg .div = true → x.writesReg .mode = false := by
  cases h with
  | ctc => simp [Transfer.writesReg]
  | pwm _ _ ch => cases ch <;> simp [Transfer.writesReg, Channel.compareReg]

/-- The next transfer of a Busy instance is in its domain, and is no write of DIV with a write of MODE still to come
(10_state R50, 20_memory R72). -/
theorem LeftOfOperation.next_allowed {c : Config} {p : PeripheralSpec} {w : Transfer} {rest : List Transfer}
    {rsp : Response} (wf : p.WellFormed c.gpioW) (h : LeftOfOperation c p (w :: rest) rsp) :
    transferOk c p w = true ∧ (w.writesReg .div = true → ∀ x ∈ rest, x.writesReg .mode = false) := by
  obtain ⟨r, cc, made, hdone, -⟩ := h
  have hws := isWriteList_of_execRequest wf hdone
  obtain ⟨-, hpending, -⟩ := List.pairwise_append.mp hws.modeBeforeDiv
  obtain ⟨hord, -⟩ := List.pairwise_cons.mp hpending
  exact ⟨hws.inDomain w (by simp), fun hdiv x hx => hord x hx hdiv⟩

/-! ### Transfers of one instance, repeated and exchanged -/

@[simp] theorem State.setRegs_setRegs (s : State) (i : InstId) (q r : RegBlock) :
    (s.setRegs i q).setRegs i r = s.setRegs i r := by
  simp [State.setRegs]

theorem State.setRegs_setGpioDir (s : State) (i : InstId) (r : RegBlock) (v : Nat) :
    (s.setGpioDir v).setRegs i r = (s.setRegs i r).setGpioDir v := by
  cases i <;> rfl

theorem RegBlock.write_comm (r : RegBlock) (u v : Nat) {id id' : RegId} (h : id ≠ id') :
    (r.write id u).write id' v = (r.write id' v).write id u := by
  cases id <;> cases id' <;> simp_all [RegBlock.write]

/-- Making one transfer twice is making it once (20_memory R70, R74). -/
theorem State.perform_perform (s : State) (i : InstId) (w : Transfer) : (s.perform i w).perform i w = s.perform i w := by
  cases w with
  | regWrite id v => simp [State.perform, RegBlock.write_write]
  | dirSet b =>
    show s.setGpioDir (s.gpioDir ||| 1 <<< b ||| 1 <<< b) = s.setGpioDir (s.gpioDir ||| 1 <<< b)
    rw [Nat.or_assoc, Nat.or_self]

/-- The two transfers do not write one register. -/
def Transfer.Apart (v w : Transfer) : Prop := ∀ id, v.writesReg id = true → w.writesReg id = false

/-- Two transfers of one instance that do not write one register commute. -/
theorem State.perform_comm (s : State) (i : InstId) {v w : Transfer} (h : v.Apart w) :
    (s.perform i v).perform i w = (s.perform i w).perform i v := by
  cases v with
  | regWrite id u =>
    cases w with
    | regWrite id' u' =>
      have hne : id ≠ id' := fun e => by simpa [Transfer.writesReg, e] using h id
      simp [State.perform, RegBlock.write_comm _ u u' hne]
    | dirSet b => simp [State.perform, State.setRegs_setGpioDir]
  | dirSet b =>
    cases w with
    | regWrite id' u' => simp [State.perform, State.setRegs_setGpioDir]
    | dirSet b' =>
      show s.setGpioDir (s.gpioDir ||| 1 <<< b ||| 1 <<< b') = s.setGpioDir (s.gpioDir ||| 1 <<< b' ||| 1 <<< b)
      rw [Nat.or_right_comm]

/-- A transfer may be made before or after a list that writes other registers. -/
theorem State.perform_performAll_comm (s : State) (i : InstId) {w : Transfer} {ws : List Transfer}
    (h : ∀ x ∈ ws, w.Apart x) : (s.performAll i ws).perform i w = (s.perform i w).performAll i ws := by
  induction ws generalizing s with
  | nil => rfl
  | cons x xs ih =>
    obtain ⟨hx, hxs⟩ := List.forall_mem_cons.mp h
    rw [State.performAll_cons, ih _ hxs, ← State.perform_comm s i hx, ← State.performAll_cons]

/-- A list that writes no register twice, made twice, is the list made once: its first transfer moves from the second pass to
the first, where it changes nothing more. -/
theorem State.performAll_performAll (s : State) (i : InstId) {ws : List Transfer} (h : ws.Pairwise Transfer.Apart) :
    (s.performAll i ws).performAll i ws = s.performAll i ws := by
  induction h generalizing s with
  | nil => rfl
  | @cons w ws hw _ ih =>
    calc (s.performAll i (w :: ws)).performAll i (w :: ws)
        = (((s.perform i w).performAll i ws).perform i w).performAll i ws := rfl
      _ = (((s.perform i w).perform i w).performAll i ws).performAll i ws := by
          rw [State.perform_performAll_comm _ i hw]
      _ = s.performAll i (w :: ws) := by rw [State.perform_perform, ih, State.performAll_cons]

/-- A write list writes no register twice (43_packer R190). -/
theorem IsWriteList.apart {c : Config} {p : PeripheralSpec} {ws : List Transfer} (h : IsWriteList c p ws) :
    ws.Pairwise Transfer.Apart := by
  cases h with
  | ctc => simp [Transfer.Apart, Transfer.writesReg]
  | pwm _ _ ch => cases ch <;> simp [Transfer.Apart, Transfer.writesReg, Channel.compareReg]

end Sys2Proof.Machine
end

section
/-! PROOFS. What every step answers and what it leaves as it was (00_scope R9, R20, R22), and what `exec` depends on
(00_scope R24). -/

namespace Sys2Proof.Machine

/-! ### The act of a step -/

/-- A step is the handling of one event, the counters having moved, or the counters' movement alone. A turn chosen with an
empty schedule is that turn as an event (log 7). -/
theorem step_handles_event_or_nothing (s : State) :
    (∃ e later, step s = handleEvent e (s.beginStep.setSchedule later)) ∨ step s = .next s.beginStep := by
  cases hs : s.schedule with
  | cons e later => exact .inl ⟨e, later, step_event hs⟩
  | nil =>
    rw [step_unscheduled hs]
    cases s.nextReady with
    | none => exact .inr rfl
    | some i =>
      have he : s.beginStep.setSchedule [] = s.beginStep := by rw [← hs]; rfl
      exact .inl ⟨.turn i, [], by rw [he]; rfl⟩

/-! ### Progress -/

/-- A turn answers a next state where the instance can be instantiated and its condition is one it can be in. -/
theorem instanceTurn_answers {s : State} {i : InstId} (ok : s.cfg.OkFor i)
    (sound : (s.inst i).cond.Sound s.cfg (s.spec i)) : ∃ t, instanceTurn i s = .next t := by
  have ⟨_, _, wf⟩ := ok
  cases hc : (s.inst i).cond with
  | busy w rest rsp =>
    rw [hc] at sound
    obtain ⟨hok, hord⟩ := LeftOfOperation.next_allowed wf sound
    exact ⟨_, (instanceTurn_busy hc).trans (makeTransfer_ok rest rsp hok hord)⟩
  | idle =>
    cases hw : (s.inst i).waiting with
    | nil => exact ⟨_, instanceTurn_nothing hc hw⟩
    | cons r left =>
      exact ⟨_, (instanceTurn_accept hc hw).trans (accept_idle _ _ (by simpa using hc) (by simpa using ok))⟩

/-- Every event is answered with a next state: an instance's turn as above, any other always. -/
theorem handleEvent_answers (e : Event) {s : State} (wf : s.cfg.WellFormed)
    (sound : ∀ i, (s.inst i).cond.Sound s.cfg (s.spec i)) : ∃ t, handleEvent e s = .next t := by
  cases e with
  | turn i => exact instanceTurn_answers (wf i) (sound i)
  | present i r => exact ⟨_, rfl⟩
  | outsideWrite i id v => exact ⟨_, rfl⟩
  | outsideDir v => exact ⟨_, rfl⟩
  | powerUp c => exact ⟨_, rfl⟩

/-! ### The parameters -/

@[simp] theorem State.present_cfg (s : State) (i : InstId) (r : Request) : (s.present i r).cfg = s.cfg := by
  simp [State.present]
@[simp] theorem State.outsideWrite_cfg (s : State) (i : InstId) (id : RegId) (v : Nat) :
    (s.outsideWrite i id v).cfg = s.cfg := by simp [State.outsideWrite]
@[simp] theorem State.outsideDir_cfg (s : State) (v : Nat) : (s.outsideDir v).cfg = s.cfg := rfl
@[simp] theorem State.powerUp_cfg (s : State) (c : Contents) : (s.powerUp c).cfg = s.cfg := rfl

/-- No event changes a parameter. -/
theorem handleEvent_cfg {e : Event} {s t : State} (h : handleEvent e s = .next t) : t.cfg = s.cfg := by
  cases e with
  | turn i => exact instanceTurn_cfg h
  | present i r => cases h; simp
  | outsideWrite i id v => cases h; simp
  | outsideDir v => cases h; simp
  | powerUp c => cases h; simp

/-! ### What `exec` depends on -/

/-- `exec` accepts an outcome that the operation, the parameters and the instance fix: nothing else of the state enters it
(00_scope R24, 30_encoding R103). -/
theorem exec_accepts_fixed_outcome (instr : Instr) (c : Config) (i : InstId) :
    ∃ out, ∀ s : State, s.cfg = c → s.active = i → exec instr s = accept out s := by
  cases instr with
  | cfgCtc period ie =>
    refine ⟨cfgCtc c (c.spec i) period ie, ?_⟩
    rintro s rfl rfl
    rfl
  | cfgPwm on period pin ieA ieB =>
    refine ⟨cfgPwm c (c.spec i) on period pin ieA ieB, ?_⟩
    rintro s rfl rfl
    rfl

/-- The condition an `Idle` instance takes when it accepts an outcome: still `Idle` after an error, else its write list
(10_state R51). -/
theorem enter_cond_active (out : OpResult) (s : State) (h : (s.inst s.active).cond = .idle) :
    ((enter out s).inst s.active).cond = match out with
      | .done c (w :: rest) => .busy w rest (responseOf c)
      | _ => .idle := by
  cases out with
  | error st => simpa using h
  | done c ws => cases ws <;> simp

/-- The response wire after an acceptance: driven where no transfer is to be made, else as it was (10_state R51). -/
theorem enter_rsp (out : OpResult) (s : State) :
    (enter out s).rsp = match out with
      | .error st => some (s.active, errorResponse st)
      | .done c [] => some (s.active, responseOf c)
      | .done _ (_ :: _) => s.rsp := by
  cases out with
  | error st => simp
  | done c ws => cases ws <;> simp

end Sys2Proof.Machine
end

section
/-! PROOFS. The statements of 00_scope. -/

open Sys2Proof Sys2Proof.Machine

/-- Settles O53: a transfer still to make stands in the write list of some request, so it is in its domain and in order; every
other act answers a next state by itself. -/
theorem theMachineNeverStops : Obligations.TheMachineNeverStops := by
  intro s inv
  obtain ⟨e, later, hstep⟩ | hstep := step_handles_event_or_nothing s
  · rw [hstep]
    exact handleEvent_answers e (by simpa using inv.config) (fun i => by simpa using inv.cond i)
  · exact ⟨_, hstep⟩

/-- Settles O41: a write list writes no register twice, so its transfers can be exchanged, and each made twice is made once. -/
theorem operationIsIdempotent : Obligations.OperationIsIdempotent := by
  rintro s i r cc ws ⟨-, -, wf⟩ hdone
  exact s.performAll_performAll i (isWriteList_of_execRequest wf hdone).apart

/-- Settles O42: both states accept the one outcome that the operation and the parameters fix. -/
theorem outcomeDoesNotDependOnRegisters : Obligations.OutcomeDoesNotDependOnRegisters := by
  intro s s' instr hcfg hact ok hidle hidle' hrsp
  obtain ⟨out, hout⟩ := exec_accepts_fixed_outcome instr s.cfg s.active
  have ok' : s'.cfg.OkFor s'.active := by rwa [← hcfg, ← hact]
  have hcond : ((enter out s).inst s.active).cond = ((enter out s').inst s.active).cond := by
    rw [enter_cond_active out s hidle, hact, enter_cond_active out s' hidle']
  have hwire : (enter out s).rsp = (enter out s').rsp := by
    rw [enter_rsp, enter_rsp, hact, hrsp]
  exact ⟨enter out s, enter out s', (hout s rfl rfl).trans (accept_idle out s hidle ok),
    (hout s' hcfg.symm hact.symm).trans (accept_idle out s' hidle' ok'), hcond, hwire,
    enter_regs out s _, enter_regs out s' _, enter_gpioDir out s, enter_gpioDir out s'⟩

/-- Settles O54: every event keeps the parameters, and so does the counters' movement. -/
theorem noStepChangesAParameter : Obligations.NoStepChangesAParameter := by
  intro s t h
  obtain ⟨e, later, hstep⟩ | hstep := step_handles_event_or_nothing s
  · have hcfg := handleEvent_cfg (hstep.symm.trans h)
    simpa using hcfg
  · cases hstep.symm.trans h
    rfl

end

section
/-! PROOFS. What a step can be, and what the turn of one instance leaves of the rest (10_state R45, R48, R49, R51, R55, R57). -/

namespace Sys2Proof.Machine

/-! ### Whose act a step is -/

/-- A step handles the first event of the schedule; with an empty schedule it is the turn of an instance with something to do,
or the counters' movement alone (10_state R51; log 7). -/
theorem step_cases (s : State) :
    (∃ e later, s.schedule = e :: later ∧ step s = handleEvent e (s.beginStep.setSchedule later)) ∨
    (∃ i, s.schedule = [] ∧ s.nextReady = some i ∧ step s = instanceTurn i s.beginStep) ∨
    (s.schedule = [] ∧ s.nextReady = none ∧ step s = .next s.beginStep) := by
  cases hs : s.schedule with
  | cons e later => exact .inl ⟨e, later, rfl, step_event hs⟩
  | nil =>
    have hstep := step_unscheduled hs
    cases hn : s.nextReady with
    | some i => exact .inr (.inl ⟨i, rfl, rfl, by rw [hstep, hn]⟩)
    | none => exact .inr (.inr ⟨rfl, rfl, by rw [hstep, hn]⟩)

/-- A step with a turn scheduled is that turn, the counters having moved. -/
theorem step_turn {s : State} {i : InstId} {later : List Event} (h : s.schedule = .turn i :: later) :
    step s = instanceTurn i (s.beginStep.setSchedule later) := step_event h

/-- The instance an empty schedule gives the turn to has something to do (log 7). -/
theorem State.ready_of_nextReady {s : State} {i : InstId} (h : s.nextReady = some i) : (s.inst i).ready = true := by
  unfold State.nextReady at h
  split at h
  · next hr => cases h; exact hr
  · split at h
    · next hr => cases h; exact hr
    · split at h
      · next hr => cases h; exact hr
      · cases h

/-! ### What a turn leaves alone -/

/-- The turn of one instance, with the counters' movement before it, leaves every other instance alone (10_state R55, R57). -/
theorem step_turn_leftAlone {s t : State} {i j : InstId} {later : List Event} (hs : s.schedule = .turn i :: later)
    (h : step s = .next t) (hj : j ≠ i) : (s.inst j).LeftAlone (t.inst j) := by
  rw [step_turn hs] at h
  rw [instanceTurn_inst_other h hj, State.setSchedule_inst]
  exact beginStep_leftAlone s j

/-- A turn of a `Busy` instance makes the first transfer of its list, if it is in its domain and in order, and goes on with the
rest (10_state R51). -/
theorem step_turn_busy {s : State} {i : InstId} {w : Transfer} {rest : List Transfer} {rsp : Response} {later : List Event}
    (hs : s.schedule = .turn i :: later) (hc : (s.inst i).cond = .busy w rest rsp)
    (hok : transferOk s.cfg (s.spec i) w = true)
    (hord : w.writesReg .div = true → ∀ x ∈ rest, x.writesReg .mode = false) :
    step s = .next (continueWith i rest rsp (((s.beginStep.setSchedule later).setActive i).perform i w)) := by
  have hbusy : ((s.beginStep.setSchedule later).inst i).cond = .busy w rest rsp := by simpa using hc
  rw [step_turn hs, instanceTurn_busy hbusy]
  exact makeTransfer_ok rest rsp (by simpa using hok) hord

/-- A turn of an `Idle` instance that has a request to take accepts what EXEC gives for it (10_state R51, 30_encoding R103). -/
theorem step_turn_accept {s : State} {i : InstId} {r : Request} {left : List Request} {later : List Event}
    (hs : s.schedule = .turn i :: later) (ok : s.cfg.OkFor i) (hidle : (s.inst i).cond = .idle)
    (hw : (s.inst i).waiting = r :: left) :
    step s = .next (enter (execRequest s.cfg (s.spec i) r) ((s.beginStep.setSchedule later).takeRequest i left)) := by
  rw [step_turn hs, instanceTurn_accept (r := r) (left := left) (by simpa using hidle) (by simpa using hw)]
  exact accept_idle _ _ (by simpa using hidle) (by simpa using ok)

/-- A turn of an `Idle` instance whose oldest request decodes runs `exec` of the operation (30_encoding R103). -/
theorem step_turn_exec {s : State} {i : InstId} {r : Request} {left : List Request} {later : List Event} {instr : Instr}
    (hs : s.schedule = .turn i :: later) (hidle : (s.inst i).cond = .idle) (hw : (s.inst i).waiting = r :: left)
    (hd : decode r = .ok instr) : step s = exec instr ((s.beginStep.setSchedule later).takeRequest i left) := by
  rw [step_turn hs]
  simp [instanceTurn, hidle, hw, hd]

/-! ### Direction bits -/

/-- A turn clears no direction bit: a transfer sets at most its own, and an acceptance none (10_state R49, 20_memory R74). -/
theorem instanceTurn_isOutput {s t : State} {i : InstId} {b : Nat} (h : instanceTurn i s = .next t)
    (hb : s.isOutput b = true) : t.isOutput b = true := by
  obtain ⟨w, rest, rsp, -, -, rfl⟩ | ⟨-, -, rfl⟩ | ⟨r, left, -, -, -, rfl⟩ := instanceTurn_next h
  · rw [State.isOutput] at hb
    rw [State.isOutput, continueWith_gpioDir, State.perform_gpioDir, Transfer.onGpio_testBit, State.setActive_gpioDir, hb,
      Bool.true_or]
  · exact hb
  · simpa [State.isOutput] using hb

/-- No act of an instance or of the host clears a direction bit (10_state R49, 42_pwm R169). -/
theorem handleEvent_isOutput {e : Event} {s t : State} {b : Nat} (he : e.isOwn = true) (h : handleEvent e s = .next t)
    (hb : s.isOutput b = true) : t.isOutput b = true := by
  cases e with
  | turn i => exact instanceTurn_isOutput h hb
  | present i r => cases h; simpa [State.isOutput, State.present] using hb
  | outsideWrite i id v => cases he
  | outsideDir v => cases he
  | powerUp c => cases he

/-! ### The request a turn takes -/

@[simp] theorem State.takeRequest_regs (s : State) (i j : InstId) (q : List Request) :
    ((s.takeRequest i q).inst j).regs = (s.inst j).regs := by
  by_cases h : j = i
  · subst h; simp
  · rw [State.takeRequest_inst_other s q h]

@[simp] theorem State.offer_cfg (s : State) (r : Request) : (s.offer r).cfg = s.cfg := rfl
@[simp] theorem State.offer_schedule (s : State) (r : Request) : (s.offer r).schedule = .turn .t16 :: s.schedule := rfl
@[simp] theorem State.offer_cond (s : State) (r : Request) : ((s.offer r).inst .t16).cond = .idle := rfl
@[simp] theorem State.offer_waiting (s : State) (r : Request) :
    ((s.offer r).inst .t16).waiting = r :: (s.inst .t16).waiting := rfl
@[simp] theorem State.offer_regs (s : State) (r : Request) (i : InstId) :
    ((s.offer r).inst i).regs = (s.inst i).regs := by cases i <;> rfl

/-- The step after a request is offered to T16 runs it (log 10). -/
theorem step_offer {r : Request} {instr : Instr} (s : State) (hd : decode r = .ok instr) :
    step (s.offer r)
      = exec instr (((s.offer r).beginStep.setSchedule s.schedule).takeRequest .t16 (s.inst .t16).waiting) :=
  step_turn_exec (State.offer_schedule s r) (State.offer_cond s r) (State.offer_waiting s r) hd

/-- What the decoder reads from a record written as a number (log 17). -/
theorem decode_of_decodeTableWord {nbits w : Nat} {instr : Instr} (h : decodeTableWord nbits w = some instr) :
    decode (Request.ofBits (w % 2 ^ nbits)) = .ok instr := by
  unfold decodeTableWord at h
  cases hd : decode (Request.ofBits (w % 2 ^ nbits)) with
  | error e => rw [hd] at h; cases h
  | ok instr' => rw [hd] at h; cases h; rfl

end Sys2Proof.Machine
end

section
/-! PROOFS. When a response is on the wire after a step (10_state R51, R53, 70_reset R255). -/

namespace Sys2Proof.Machine

/-- The next step is the turn of the instance `i`: scheduled, or chosen with an empty schedule (log 7). -/
def State.TurnIs (s : State) (i : InstId) : Prop :=
  (∃ later, s.schedule = .turn i :: later) ∨ (s.schedule = [] ∧ s.nextReady = some i)

/-- A turn of the instance `i` ends an operation with this response: by the last transfer of its list, or by the error its
oldest request is answered with (10_state R51). -/
def State.EndsWith (s : State) (i : InstId) (rsp : Response) : Prop :=
  (∃ w, (s.inst i).cond = .busy w [] rsp) ∨
    ((s.inst i).cond = .idle ∧ ∃ r left st, (s.inst i).waiting = r :: left ∧
      execRequest s.cfg (s.spec i) r = .error st ∧ rsp = errorResponse st)

/-- One step is the turn of at most one instance. -/
theorem State.TurnIs.unique {s : State} {i j : InstId} (hi : s.TurnIs i) (hj : s.TurnIs j) : i = j := by
  obtain ⟨later, hi⟩ | ⟨hi, hni⟩ := hi
  · obtain ⟨later', hj⟩ | ⟨hj, -⟩ := hj
    · cases hi.symm.trans hj; rfl
    · cases hi.symm.trans hj
  · obtain ⟨later', hj⟩ | ⟨-, hnj⟩ := hj
    · cases hi.symm.trans hj
    · cases hni.symm.trans hnj; rfl

/-- A list of more than one transfer does not end with its first. -/
theorem State.not_endsWith_of_more {s : State} {i : InstId} {w w' : Transfer} {rest : List Transfer} {rsp : Response}
    (hc : (s.inst i).cond = .busy w (w' :: rest) rsp) (rsp' : Response) : ¬ s.EndsWith i rsp' := by
  rintro (⟨v, hv⟩ | ⟨hidle, -⟩)
  · cases hc.symm.trans hv
  · cases hc.symm.trans hidle

/-- A request that succeeds does not end at its acceptance. -/
theorem State.not_endsWith_of_done {s : State} {i : InstId} {r : Request} {left : List Request} {cc : CounterConfig}
    {ws : List Transfer} (hidle : (s.inst i).cond = .idle) (hw : (s.inst i).waiting = r :: left)
    (hdone : execRequest s.cfg (s.spec i) r = .done cc ws) (rsp : Response) : ¬ s.EndsWith i rsp := by
  rintro (⟨v, hv⟩ | ⟨-, r', left', st, hw', herr, -⟩)
  · cases hidle.symm.trans hv
  · cases hw.symm.trans hw'
    cases hdone.symm.trans herr

/-- An `Idle` instance with no request presented has nothing to end. -/
theorem State.not_endsWith_of_nothing {s : State} {i : InstId} (hidle : (s.inst i).cond = .idle)
    (hw : (s.inst i).waiting = []) (rsp : Response) : ¬ s.EndsWith i rsp := by
  rintro (⟨v, hv⟩ | ⟨-, r, left, st, hw', -⟩)
  · cases hidle.symm.trans hv
  · cases hw.symm.trans hw'

/-- No response is on the wire after an event that is no turn, if none was before. -/
theorem handleEvent_rsp_of_not_turn {e : Event} {s t : State} (he : ∀ i, e ≠ .turn i) (hnone : s.rsp = none)
    (h : handleEvent e s = .next t) : t.rsp = none := by
  cases e with
  | turn i => exact absurd rfl (he i)
  | present i r => cases h; simpa [State.present] using hnone
  | outsideWrite i id v => cases h; simpa [State.outsideWrite] using hnone
  | outsideDir v => cases h; exact hnone
  | powerUp c => cases h; rfl

/-- A response that a turn leaves on an empty wire is the turning instance's, and ends an operation of it. -/
theorem instanceTurn_rsp_some {s t : State} {i j : InstId} {rsp : Response} (h : instanceTurn i s = .next t)
    (hnone : s.rsp = none) (hrsp : t.rsp = some (j, rsp)) : i = j ∧ s.EndsWith i rsp := by
  obtain hkept | ⟨rsp', hgiven, hends⟩ := instanceTurn_rsp h
  · cases (hkept.trans hnone).symm.trans hrsp
  · cases hgiven.symm.trans hrsp
    exact ⟨rfl, hends⟩

/-- A response on the wire after a step is the one the turn of the instance it names ended an operation with
(10_state R51, R53). -/
theorem step_rsp_some {s t : State} {i : InstId} {rsp : Response} (h : step s = .next t) (hrsp : t.rsp = some (i, rsp)) :
    s.TurnIs i ∧ s.EndsWith i rsp := by
  obtain ⟨e, later, hs, hstep⟩ | ⟨j, hs, hn, hstep⟩ | ⟨-, -, hstep⟩ := step_cases s
  · by_cases he : ∃ j, e = .turn j
    · obtain ⟨j, rfl⟩ := he
      obtain ⟨rfl, hends⟩ := instanceTurn_rsp_some (hstep.symm.trans h) rfl hrsp
      exact ⟨.inl ⟨later, hs⟩, by simpa [State.EndsWith] using hends⟩
    · have hnone := handleEvent_rsp_of_not_turn (not_exists.mp he) rfl (hstep.symm.trans h)
      cases hnone.symm.trans hrsp
  · obtain ⟨rfl, hends⟩ := instanceTurn_rsp_some (hstep.symm.trans h) rfl hrsp
    exact ⟨.inr ⟨hs, hn⟩, by simpa [State.EndsWith] using hends⟩
  · cases hstep.symm.trans h
    cases hrsp

/-- A turn that ends no operation leaves the wire empty. -/
theorem step_rsp_none_of_turn {s t : State} {i : InstId} (h : step s = .next t) (hturn : s.TurnIs i)
    (hends : ∀ rsp, ¬ s.EndsWith i rsp) : t.rsp = none := by
  refine Option.eq_none_iff_forall_ne_some.mpr ?_
  rintro ⟨j, rsp⟩ hrsp
  obtain ⟨hj, hej⟩ := step_rsp_some h hrsp
  cases hturn.unique hj
  exact hends rsp hej

/-- A step that is no instance's turn leaves the wire empty. -/
theorem step_rsp_none_of_no_turn {s t : State} (h : step s = .next t) (hturn : ∀ i, ¬ s.TurnIs i) : t.rsp = none := by
  refine Option.eq_none_iff_forall_ne_some.mpr ?_
  rintro ⟨j, rsp⟩ hrsp
  exact hturn j (step_rsp_some h hrsp).1

end Sys2Proof.Machine
end

section
/-! PROOFS. Every step keeps the invariant (10_state R32, R42, R49, R50). -/

namespace Sys2Proof.Machine

/-! ### The condition of an instance -/

/-- The condition of an instance that has these transfers still to make: `Busy(pending, rsp)`, or `Idle` when there is none
(10_state R50, R51). -/
def Condition.ofPending (rsp : Response) : List Transfer → Condition
  | [] => .idle
  | w :: rest => .busy w rest rsp

theorem continueWith_cond_eq_ofPending (i : InstId) (l : List Transfer) (rsp : Response) (s : State) :
    ((continueWith i l rsp s).inst i).cond = .ofPending rsp l := by
  cases l <;> simp [Condition.ofPending]

/-- What is left of an operation's list after its next transfer is left of that operation too (10_state R50). -/
theorem LeftOfOperation.tail {c : Config} {p : PeripheralSpec} {w : Transfer} {rest : List Transfer} {rsp : Response}
    (h : LeftOfOperation c p (w :: rest) rsp) : LeftOfOperation c p rest rsp := by
  obtain ⟨r, cc, made, hdone, hrsp⟩ := h
  exact ⟨r, cc, made ++ [w], by simpa using hdone, hrsp⟩

theorem LeftOfOperation.sound {c : Config} {p : PeripheralSpec} {pending : List Transfer} {rsp : Response}
    (h : LeftOfOperation c p pending rsp) : (Condition.ofPending rsp pending).Sound c p := by
  cases pending with
  | nil => trivial
  | cons w rest => exact h

/-- An acceptance leaves a sound condition: `Idle` after an error, else the whole list of the request accepted
(10_state R50, R51). -/
theorem enter_execRequest_sound (r : Request) {s : State} (hidle : (s.inst s.active).cond = .idle) :
    ((enter (execRequest s.cfg (s.spec s.active) r) s).inst s.active).cond.Sound s.cfg (s.spec s.active) := by
  cases hout : execRequest s.cfg (s.spec s.active) r with
  | error st =>
    rw [enter_error, raiseError_inst, hidle]
    trivial
  | done cc ws =>
    rw [enter_done, continueWith_cond_eq_ofPending]
    exact LeftOfOperation.sound ⟨r, cc, [], hout, rfl⟩

/-! ### The invariant, one instance at a time -/

/-- An act that changes one instance and `GPIO_DIR` keeps the invariant if that instance and `GPIO_DIR` meet it after the act. -/
theorem State.Inv.of_one_inst {s t : State} (inv : s.Inv) (i : InstId) (hcfg : t.cfg = s.cfg)
    (hother : ∀ j, j ≠ i → t.inst j = s.inst j) (hregs : (t.inst i).regs.InRange (s.spec i))
    (hcond : (t.inst i).cond.Sound s.cfg (s.spec i)) (hgpio : t.gpioDir < 2 ^ s.cfg.gpioW) : t.Inv := by
  have hspec : ∀ j, t.spec j = s.spec j := fun j => by rw [State.spec, hcfg, State.spec]
  refine ⟨hcfg ▸ inv.config, fun j => ?_, fun j => ?_, hcfg ▸ hgpio⟩
  · rw [hspec]
    by_cases hj : j = i
    · exact hj ▸ hregs
    · exact hother j hj ▸ inv.regs j
  · rw [hspec, hcfg]
    by_cases hj : j = i
    · exact hj ▸ hcond
    · exact hother j hj ▸ inv.cond j

/-- The counters' movement keeps the invariant: a clocked CNT moves within its width (10_state R48). -/
theorem State.Inv.beginStep {s : State} (inv : s.Inv) : s.beginStep.Inv where
  config := inv.config
  regs i := by
    rw [State.beginStep_inst]
    exact Inst.letCount_inRange (inv.regs i) _
  cond i := by
    rw [State.beginStep_cond]
    exact inv.cond i
  gpio := inv.gpio

theorem State.Inv.setSchedule {s : State} (inv : s.Inv) (l : List Event) : (s.setSchedule l).Inv where
  config := inv.config
  regs i := by simpa using inv.regs i
  cond i := by simpa using inv.cond i
  gpio := inv.gpio

/-- A turn keeps the invariant: a transfer made is in its domain and leaves the rest of its list, and what a request starts is
its own list. -/
theorem State.Inv.instanceTurn {s t : State} {i : InstId} (inv : s.Inv) (h : instanceTurn i s = .next t) : t.Inv := by
  have keep := inv.of_one_inst i (instanceTurn_cfg h) fun j hj => instanceTurn_inst_other h hj
  obtain ⟨w, rest, rsp, hc, hok, rfl⟩ | ⟨-, -, rfl⟩ | ⟨r, left, hidle, -, -, rfl⟩ := instanceTurn_next h
  · have hleft : LeftOfOperation s.cfg (s.spec i) (w :: rest) rsp := by
      have hsound := inv.cond i
      rw [hc] at hsound
      exact hsound
    have hcond := hleft.tail.sound
    rw [← continueWith_cond_eq_ofPending i] at hcond
    exact keep (by simpa using Transfer.onRegs_inRange (inv.regs i) hok) hcond
      (by simpa using Transfer.onGpio_lt inv.gpio hok)
  · exact keep (by simpa using inv.regs i) (by simpa using inv.cond i) inv.gpio
  · have hcond := enter_execRequest_sound r (s := s.takeRequest i left) (by simpa using hidle)
    exact keep (by simpa using inv.regs i) (by simpa using hcond) (by simpa using inv.gpio)

/-- The host's presenting a request changes neither registers nor conditions. -/
theorem State.Inv.present {s : State} (inv : s.Inv) (i : InstId) (r : Request) : (s.present i r).Inv := by
  refine inv.of_one_inst i (State.present_cfg s i r) (fun j hj => State.setWaiting_inst_other s _ hj) ?_ ?_ ?_
  · simpa [State.present] using inv.regs i
  · simpa [State.present] using inv.cond i
  · simpa [State.present] using inv.gpio

/-- A write by other code carries a value of the register's width (log 13). -/
theorem State.Inv.outsideWrite {s : State} (inv : s.Inv) (i : InstId) (id : RegId) (v : Nat) :
    (s.outsideWrite i id v).Inv := by
  refine inv.of_one_inst i (State.outsideWrite_cfg s i id v) (fun j hj => State.setRegs_inst_other s _ hj) ?_ ?_ ?_
  · simpa [State.outsideWrite] using RegBlock.write_inRange (inv.regs i) id _ (Nat.mod_lt _ (Nat.two_pow_pos _))
  · simpa [State.outsideWrite] using inv.cond i
  · simpa [State.outsideWrite] using inv.gpio

/-- A write of `GPIO_DIR` by other code carries `GPIO_W` bits (log 13). -/
theorem State.Inv.outsideDir {s : State} (inv : s.Inv) (v : Nat) : (s.outsideDir v).Inv where
  config := inv.config
  regs i := by simpa [State.outsideDir] using inv.regs i
  cond i := by simpa [State.outsideDir] using inv.cond i
  gpio := Nat.mod_lt _ (Nat.two_pow_pos _)

/-- The contents the power brings are cut to their widths, and every instance is `Idle` (70_reset R240; log 13). -/
theorem State.Inv.powerUp {s : State} (inv : s.Inv) (c : Contents) : (s.powerUp c).Inv where
  config := inv.config
  regs i := by cases i <;> exact RegBlock.clip_inRange _ _
  cond i := by cases i <;> trivial
  gpio := Nat.mod_lt _ (Nat.two_pow_pos _)

/-- Every event keeps the invariant. -/
theorem State.Inv.handleEvent {e : Event} {s t : State} (inv : s.Inv) (h : handleEvent e s = .next t) : t.Inv := by
  cases e with
  | turn i => exact inv.instanceTurn h
  | present i r => cases h; exact inv.present i r
  | outsideWrite i id v => cases h; exact inv.outsideWrite i id v
  | outsideDir v => cases h; exact inv.outsideDir v
  | powerUp c => cases h; exact inv.powerUp c

end Sys2Proof.Machine
end

section
/-! PROOFS. An operation part way: after acceptance and some of its turns the block holds the first transfers of its list
(10_state R51, 20_memory R76, 70_reset R248). -/

namespace Sys2Proof.Machine

/-- Blocks that agree but for CNT agree but for CNT after a transfer. -/
theorem Transfer.onRegs_read_congr (w : Transfer) {r r' : RegBlock} (h : ∀ id, id ≠ .cnt → r.read id = r'.read id)
    (id : RegId) (hid : id ≠ .cnt) : (w.onRegs r).read id = (w.onRegs r').read id := by
  cases w with
  | dirSet b => exact h id hid
  | regWrite id' v =>
    by_cases he : id = id'
    · subst he; cases id <;> rfl
    · exact (RegBlock.read_write_other r v he).trans ((h id hid).trans (RegBlock.read_write_other r' v he).symm)

/-- One transfer more of a list. -/
theorem State.performAll_take_succ (s : State) (i : InstId) {ws : List Transfer} {k : Nat} (hk : k < ws.length) :
    s.performAll i (ws.take (k + 1)) = (s.performAll i (ws.take k)).perform i ws[k] := by
  rw [List.take_succ_eq_append_getElem hk, State.performAll_append]
  rfl

/-- A run of one step more. -/
theorem runSteps_succ_of_next {n : Nat} {s t u : State} (hrun : runSteps n s = .next t) (hstep : step t = .next u) :
    runSteps (n + 1) s = .next u := by
  induction n generalizing s with
  | zero =>
    cases hrun
    simp only [runSteps, hstep]
  | succ n ih =>
    rw [runSteps] at hrun ⊢
    cases hs : step s with
    | next v =>
      rw [hs] at hrun
      exact ih hrun
    | fault f => rw [hs] at hrun; cases hrun
    | refused r => rw [hs] at hrun; cases hrun

/-- `t` is the state `s` with the first `k` transfers of the instance's list `ws` made, the others pending, and `later` to
come (CNT apart, which a clocked counter moves). -/
structure State.PartWay (s : State) (i : InstId) (left : List Request) (ws : List Transfer) (rsp : Response)
    (later : List Event) (k : Nat) (t : State) : Prop where
  cfg : t.cfg = s.cfg
  schedule : t.schedule = later
  regs : ∀ id, id ≠ .cnt → (t.inst i).regs.read id = ((s.performAll i (ws.take k)).inst i).regs.read id
  gpioDir : t.gpioDir = (s.performAll i (ws.take k)).gpioDir
  waiting : (t.inst i).waiting = left
  cond : (t.inst i).cond = .ofPending rsp (ws.drop k)
  wire : t.rsp = if ws.drop k = [] then some (i, rsp) else none
  others : ∀ j, j ≠ i → (s.inst j).LeftAlone (t.inst j)

/-- The wire after a list is gone on with from an empty one: the response, where no transfer is left. -/
theorem continueWith_rsp_of_none (i : InstId) (l : List Transfer) (rsp : Response) {s : State} (h : s.rsp = none) :
    (continueWith i l rsp s).rsp = if l = [] then some (i, rsp) else none := by
  cases l <;> simp [h]

/-- The accepting turn of a request that succeeds: no transfer is made yet. -/
theorem step_starts_partWay {s : State} {i : InstId} {r : Request} {left : List Request} {later : List Event}
    {cc : CounterConfig} {ws : List Transfer} (hs : s.schedule = .turn i :: later) (ok : s.cfg.OkFor i)
    (hidle : (s.inst i).cond = .idle) (hw : (s.inst i).waiting = r :: left)
    (hdone : execRequest s.cfg (s.spec i) r = .done cc ws) :
    ∃ t, step s = .next t ∧ s.PartWay i left ws (responseOf cc) later 0 t := by
  have hstep := step_turn_accept hs ok hidle hw
  rw [hdone, enter_done, State.takeRequest_active] at hstep
  refine ⟨_, hstep, ?_⟩
  exact {
    cfg := by simp
    schedule := by simp
    regs := fun id hid => by simpa using State.beginStep_read s i hid
    gpioDir := by simp
    waiting := by simp
    cond := continueWith_cond_eq_ofPending i ws _ _
    wire := continueWith_rsp_of_none i ws _ (by simp)
    others := fun j hj => step_turn_leftAlone hs hstep hj }

/-- A turn of an instance part way through an operation makes the next transfer of the list. -/
theorem State.PartWay.step_turn {s t : State} {i : InstId} {r : Request} {left : List Request} {later : List Event}
    {cc : CounterConfig} {ws : List Transfer} {k : Nat} (ok : s.cfg.OkFor i)
    (hdone : execRequest s.cfg (s.spec i) r = .done cc ws)
    (h : s.PartWay i left ws (responseOf cc) (.turn i :: later) k t) (hk : k < ws.length) :
    ∃ t', step t = .next t' ∧ s.PartWay i left ws (responseOf cc) later (k + 1) t' := by
  have hdrop : ws.drop k = ws[k] :: ws.drop (k + 1) := List.drop_eq_getElem_cons hk
  have hspec : t.spec i = s.spec i := by rw [State.spec, h.cfg, State.spec]
  have hleft : LeftOfOperation s.cfg (s.spec i) (ws[k] :: ws.drop (k + 1)) (responseOf cc) :=
    ⟨r, cc, ws.take k, by rwa [← hdrop, List.take_append_drop], rfl⟩
  obtain ⟨-, -, wf⟩ := ok
  obtain ⟨hok, hord⟩ := hleft.next_allowed wf
  have hbusy : (t.inst i).cond = .busy ws[k] (ws.drop (k + 1)) (responseOf cc) := by
    rw [h.cond, hdrop]
    rfl
  have hstep := step_turn_busy h.schedule hbusy (by rwa [h.cfg, hspec]) hord
  refine ⟨_, hstep, ?_⟩
  exact {
    cfg := by simpa using h.cfg
    schedule := by simp
    regs := fun id hid => by
      rw [State.performAll_take_succ s i hk]
      simpa using ws[k].onRegs_read_congr (fun id hid => (State.beginStep_read t i hid).trans (h.regs id hid)) id hid
    gpioDir := by
      rw [State.performAll_take_succ s i hk]
      simp [h.gpioDir]
    waiting := by simpa using h.waiting
    cond := continueWith_cond_eq_ofPending i _ _ _
    wire := continueWith_rsp_of_none i _ _ (by simp)
    others := fun j hj => (h.others j hj).trans (step_turn_leftAlone h.schedule hstep hj) }

/-- After acceptance and `k` turns the instance is `k` transfers on (10_state R51, 70_reset R248). -/
theorem runSteps_partWay {s : State} {i : InstId} {r : Request} {left : List Request} {later : List Event}
    {cc : CounterConfig} {ws : List Transfer} {k : Nat} (ok : s.cfg.OkFor i) (hidle : (s.inst i).cond = .idle)
    (hw : (s.inst i).waiting = r :: left) (hdone : execRequest s.cfg (s.spec i) r = .done cc ws) (hk : k ≤ ws.length)
    (hs : s.schedule = List.replicate (k + 1) (.turn i) ++ later) :
    ∃ t, runSteps (k + 1) s = .next t ∧ s.PartWay i left ws (responseOf cc) later k t := by
  induction k generalizing later with
  | zero =>
    obtain ⟨t, hstep, ht⟩ := step_starts_partWay hs ok hidle hw hdone
    exact ⟨t, runSteps_succ_of_next rfl hstep, ht⟩
  | succ k ih =>
    rw [List.replicate_succ', List.append_assoc] at hs
    obtain ⟨t, hrun, ht⟩ := ih (by omega) hs
    obtain ⟨t', hstep, ht'⟩ := ht.step_turn ok hdone hk
    exact ⟨t', runSteps_succ_of_next hrun hstep, ht'⟩

end Sys2Proof.Machine
end

section
/-! PROOFS. What the block holds when a write list has been made (10_state R56, 43_packer R193 to R197). -/

namespace Sys2Proof.Machine

/-! ### The index selected and the fields of packed values, read back -/

/-- The selector's index is one of the dividers, and its code fits the field CS (10_state R32 item 2, R45). -/
theorem divsel_index_lt {gpioW raw : Nat} {p : PeripheralSpec} (wf : p.WellFormed gpioW) {idx v : Nat}
    (h : divsel raw p = some (idx, v)) : idx < p.dividers.length ∧ idx + 1 < 8 := by
  obtain ⟨⟨hlen, -, hmax⟩, -⟩ := wf
  have hidx := (divsel_le h).1
  omega

theorem modeOca_modeValue {l : Layout} (h : l.Ok) (m : CountMode) (f : PackFlags) :
    modeOca l (modeValue l m f) = f.ocA := by
  obtain ⟨hpos, hab, ham, ham1, -⟩ := h
  rw [modeOca, modeValue_getLsbD l hpos]
  cases m <;> simp [hab, ham, ham1]

theorem modeOcb_modeValue {l : Layout} (h : l.Ok) (m : CountMode) (f : PackFlags) :
    modeOcb l (modeValue l m f) = f.ocB := by
  obtain ⟨hpos, hab, -, -, hbm, hbm1, -⟩ := h
  rw [modeOcb, modeValue_getLsbD l hpos]
  cases m <;> simp [hab.symm, hbm, hbm1]

/-- What the selector's factors make of a shorter duration is at most the scaled count of the longer (40 R131). -/
theorem reduce_on_le_scaled {c : Config} {p : PeripheralSpec} {on period : Int} {idx scaled : Nat}
    (hd : divsel (cycles c period.toNat) p = some (idx, scaled)) (hle : on ≤ period) :
    reduce (cycles c on.toNat) p idx ≤ scaled := by
  rw [divsel_eq_reduce hd]
  exact reduce_mono p idx (cycles_mono c (Int.toNat_le_toNat hle))

/-- The mode code on the two bits of its field (10_state R44, 43_packer R195). -/
def CountMode.wgm : CountMode → BitVec 2
  | .pwm => 1
  | .ctc => 2

theorem modeWgm_modeValue {l : Layout} (h : l.Ok) (m : CountMode) (f : PackFlags) :
    modeWgm l (modeValue l m f) = m.wgm := by
  obtain ⟨hpos, -, ham, ham1, hbm, hbm1, -⟩ := h
  apply BitVec.eq_of_getLsbD_eq
  intro k hk
  rw [modeWgm, BitVec.getLsbD_extractLsb', modeValue_getLsbD l hpos]
  obtain rfl | rfl : k = 0 ∨ k = 1 := by omega
  · cases m <;> simp [CountMode.wgm, ham.symm, hbm.symm]
  · cases m <;> simp [CountMode.wgm, ham1.symm, hbm1.symm]

/-- The divider code read back from DIV (43_packer R193, 10_state R45). -/
theorem divCs_code_toNat {code : Nat} (h : code < 8) : (divCs (BitVec.ofNat 8 code)).toNat = code := by
  rw [divCs, BitVec.extractLsb'_toNat, BitVec.toNat_ofNat, Nat.shiftRight_zero]
  omega

/-! ### The block after a list of transfers -/

theorem State.performAll_regs (s : State) (i : InstId) (ws : List Transfer) :
    ((s.performAll i ws).inst i).regs = ws.foldl (fun r w => w.onRegs r) (s.inst i).regs := by
  induction ws generalizing s with
  | nil => rfl
  | cons w ws ih => rw [State.performAll_cons, ih, State.perform_regs_same, List.foldl_cons]

/-- The block after the write list of CFG.CTC (41_ctc R145, R146). -/
theorem performAll_pack_ctc_regs (s : State) (i : InstId) (l : Layout) (idx : Nat) (f : PackFlags) (top : Nat) :
    ((s.performAll i (pack l .ctc idx f top none none)).inst i).regs =
      { (s.inst i).regs with
        ien := ienValue l f, mode := modeValue l .ctc f, top := top, div := BitVec.ofNat 8 (idx + 1), cnt := 0 } := by
  rw [State.performAll_regs, pack_ctc]
  simp [Transfer.onRegs, RegBlock.write]

/-- The block after the write list of CFG.PWM: the compare register of the channel holds the on-value (42_pwm R166). -/
theorem performAll_pack_pwm_regs (s : State) (i : InstId) (l : Layout) (idx : Nat) (f : PackFlags) (top : Nat)
    (ch : Channel) (v b : Nat) :
    ((s.performAll i (pack l .pwm idx f top (some (ch, v)) (some b))).inst i).regs =
      { (s.inst i).regs.write ch.compareReg v with
        ien := ienValue l f, mode := modeValue l .pwm f, top := top, div := BitVec.ofNat 8 (idx + 1) } := by
  rw [State.performAll_regs, pack_pwm]
  cases ch <;> simp [Transfer.onRegs, RegBlock.write, Channel.compareReg]

end Sys2Proof.Machine
end

section
/-! PROOFS. The statements of 10_state. -/

open Sys2Proof Sys2Proof.Machine

/-- Settles O52: the counters' movement and every event keep the invariant. -/
theorem everyStepKeepsTheInvariant : Obligations.EveryStepKeepsTheInvariant := by
  intro s t inv h
  obtain ⟨e, later, hstep⟩ | hstep := step_handles_event_or_nothing s
  · exact (inv.beginStep.setSchedule later).handleEvent (hstep.symm.trans h)
  · cases hstep.symm.trans h
    exact inv.beginStep

/-- Settles O37: the turn is a transfer step that goes on with the rest of the list. -/
theorem turnMakesTheNextTransfer : Obligations.TurnMakesTheNextTransfer := by
  intro s i w rest rsp later hs hc hok hord
  have hstep := step_turn_busy hs hc hok hord
  refine ⟨_, hstep, ?_, continueWith_rsp_of_none i rest rsp (by simp), by simp, by simp, by simp, by simp, by simp,
    fun j hj => step_turn_leftAlone hs hstep hj⟩
  cases rest <;> simp

/-- Settles O39: by induction on the turns, each of which makes the next transfer of the list. -/
theorem operationIsItsWriteListInOrder : Obligations.OperationIsItsWriteListInOrder := by
  intro s i r left later cc ws k ok hidle hw hdone hk hs
  obtain ⟨t, hrun, ht⟩ := runSteps_partWay ok hidle hw hdone hk hs
  refine ⟨t, hrun, ht.regs, ht.gpioDir, ht.waiting, fun hend => ?_, fun hmore => ?_, ht.others⟩
  · have hdrop : ws.drop k = [] := List.drop_eq_nil_of_le hend.ge
    exact ⟨by rw [ht.cond, hdrop]; rfl, by rw [ht.wire, if_pos hdrop]⟩
  · have hdrop : ws.drop k = ws[k] :: ws.drop (k + 1) := List.drop_eq_getElem_cons hmore
    exact ⟨by rw [ht.wire, if_neg (by simpa using hmore)], _, _, hdrop, by rw [ht.cond, hdrop]; rfl⟩

/-- Settles O40: the block after each configurator's write list, its packed fields read back. -/
theorem registersAfterASuccessfulOperation : Obligations.RegistersAfterASuccessfulOperation := by
  rintro s i r cc ws ⟨-, -, wf⟩ hdone
  have hlayout : (s.spec i).layout.Ok := by
    obtain ⟨-, -, -, hlayout, -⟩ := wf
    exact hlayout
  obtain ⟨period, ie, -, h⟩ | ⟨on, period, pin, ieA, ieB, -, h⟩ := execRequest_done hdone
  · obtain ⟨-, -, idx, scaled, hd, rfl, rfl⟩ := cfgCtc_done.mp h
    obtain ⟨hidx, hcode⟩ := divsel_index_lt wf hd
    rw [performAll_pack_ctc_regs]
    exact ⟨rfl, (divsel_le hd).2, divCs_code_toNat hcode, hidx, .inr (modeWgm_modeValue hlayout _ _),
      by simp [modeOca_modeValue hlayout, ctcFlags], by simp⟩
  · obtain ⟨-, hle, -, idx, scaled, ch, b, hd, -, rfl, rfl⟩ := cfgPwm_done.mp h
    obtain ⟨hidx, hcode⟩ := divsel_index_lt wf hd
    have htop : scaled / 2 ≤ (s.spec i).registerMax := (Nat.div_le_self _ _).trans (divsel_le hd).2
    rw [performAll_pack_pwm_regs]
    refine ⟨rfl, htop, divCs_code_toNat hcode, hidx, .inl (modeWgm_modeValue hlayout _ _), ?_, ?_⟩
    · cases ch <;> simp [modeOca_modeValue hlayout, modeOcb_modeValue hlayout, pwmFlags]
    · rintro v ⟨rfl⟩
      refine ⟨Nat.div_le_div_right (reduce_on_le_scaled hd hle), ?_⟩
      cases ch with
      | a => exact .inl ⟨modeOca_modeValue hlayout _ _, rfl⟩
      | b => exact .inr ⟨modeOcb_modeValue hlayout _ _, rfl⟩

/-- Settles O44: no arm of a turn touches another instance, and before it only clocked counters moved. -/
theorem turnTouchesOnlyItsOwnPeripheral : Obligations.TurnTouchesOnlyItsOwnPeripheral :=
  fun _ _ _ _ hs h _ hj => step_turn_leftAlone hs h hj

/-- Settles O45: a turn, scheduled or chosen, and a presented request clear no bit. -/
theorem directionBitsAreNeverClearedByTheEngine : Obligations.DirectionBitsAreNeverClearedByTheEngine := by
  intro s t hown h b hb
  obtain ⟨e, later, hs, hstep⟩ | ⟨i, -, -, hstep⟩ | ⟨-, -, hstep⟩ := step_cases s
  · exact handleEvent_isOutput (hown e later hs) (hstep.symm.trans h) hb
  · exact instanceTurn_isOutput (hstep.symm.trans h) hb
  · cases hstep.symm.trans h
    exact hb

/-- Settles O48: by what the counters' movement does to one instance. -/
theorem onlyClockedCountersMoveByThemselves : Obligations.OnlyClockedCountersMoveByThemselves := by
  intro s i
  refine ⟨beginStep_leftAlone s i, fun hclk => ?_, rfl, rfl, rfl, rfl⟩
  rw [State.beginStep_inst]
  exact Inst.letCount_cnt_lt _ _ _ hclk

/-- Settles O49: a response names the instance whose turn the step was and ends an operation of it, so a step of any other
kind leaves none. -/
theorem responseIsNotKept : Obligations.ResponseIsNotKept := by
  intro s t h
  refine ⟨fun i rsp hrsp => step_rsp_some h hrsp, ?_, ?_, ?_, ?_, ?_, ?_, ?_⟩
  · intro i later w w' rest rsp hs hc
    exact step_rsp_none_of_turn h (.inl ⟨later, hs⟩) (State.not_endsWith_of_more hc)
  · intro i later r left cc ws hs hidle hw hdone
    exact step_rsp_none_of_turn h (.inl ⟨later, hs⟩) (State.not_endsWith_of_done hidle hw hdone)
  · intro i later hs hidle hw
    exact step_rsp_none_of_turn h (.inl ⟨later, hs⟩) (State.not_endsWith_of_nothing hidle hw)
  · intro e later hs hno
    refine step_rsp_none_of_no_turn h fun i hi => ?_
    obtain ⟨later', hs'⟩ | ⟨hs', -⟩ := hi
    · cases hs.symm.trans hs'
      simpa [Event.isTurnOf] using hno i
    · cases hs.symm.trans hs'
  · intro hs hready
    refine step_rsp_none_of_no_turn h fun i hi => ?_
    obtain ⟨later, hs'⟩ | ⟨-, hn⟩ := hi
    · cases hs.symm.trans hs'
    · cases (hready i).symm.trans (State.ready_of_nextReady hn)
  · intro i w w' rest rsp hs hn hc
    exact step_rsp_none_of_turn h (.inr ⟨hs, hn⟩) (State.not_endsWith_of_more hc)
  · intro i r left cc ws hs hn hidle hw hdone
    exact step_rsp_none_of_turn h (.inr ⟨hs, hn⟩) (State.not_endsWith_of_done hidle hw hdone)

/-- Settles O7: a turn of an Idle instance runs the operation its oldest request decodes to, and the offered request is the
oldest. -/
theorem stepRunsTheDecodedOperation : Obligations.StepRunsTheDecodedOperation := by
  refine ⟨fun s i r left later instr hs hidle hw hd => step_turn_exec hs hidle hw hd, fun s nbits w instr h => ?_⟩
  refine ⟨_, step_offer s (decode_of_decodeTableWord h), by simp, by simp, by simp, by simp, by simp, fun i => ?_⟩
  obtain ⟨-, -, hregs⟩ := beginStep_leftAlone (s.offer (Request.ofBits (w % 2 ^ nbits))) i
  simpa using hregs

end

section
/-! PROOFS. Rules for the transfers of 20_memory: those of two instances commute, and `GPIO_DIR` bit by bit after `DirSet`
(20_memory R74, R83). -/

namespace Sys2Proof.Machine

/-! ### Transfers of two instances -/

/-- Two instances' blocks can be replaced in either order. -/
theorem State.setRegs_comm (s : State) {i j : InstId} (h : i ≠ j) (q r : RegBlock) :
    (s.setRegs i q).setRegs j r = (s.setRegs j r).setRegs i q := by
  unfold State.setRegs
  rw [State.inst_setInst_other s _ h.symm, State.inst_setInst_other s _ h, State.setInst_comm s h]

theorem Transfer.dirSet_apart (b : Nat) (w : Transfer) : (Transfer.dirSet b).Apart w := nofun

theorem Transfer.apart_dirSet (v : Transfer) (b : Nat) : v.Apart (.dirSet b) := fun _ _ => rfl

/-- Transfers of two instances commute (20_memory R83). `DirSet` has one effect at every instance, so a pair with a `DirSet`
commutes as two transfers of one instance do; two register writes go to two blocks. -/
theorem State.perform_comm_of_ne (s : State) {i j : InstId} (h : i ≠ j) (v w : Transfer) :
    (s.perform i v).perform j w = (s.perform j w).perform i v := by
  cases v with
  | dirSet b => exact s.perform_comm j (Transfer.dirSet_apart b w)
  | regWrite id u =>
    cases w with
    | dirSet b => exact s.perform_comm i (Transfer.apart_dirSet _ b)
    | regWrite id' u' =>
      simp only [State.perform, State.setRegs_inst_other s _ h, State.setRegs_inst_other s _ h.symm]
      exact s.setRegs_comm h _ _

/-! ### Direction bits -/

/-- After `DirSet(b)` bit `b` is an output, and any other bit is what it was (20_memory R74). -/
theorem State.isOutput_perform_dirSet (s : State) (i : InstId) (b b' : Nat) :
    (s.perform i (.dirSet b)).isOutput b' = (s.isOutput b' || decide (b' = b)) := by
  rw [State.isOutput, State.perform_gpioDir, Transfer.onGpio_testBit, State.isOutput]

end Sys2Proof.Machine
end

section
/-! PROOFS. The statements of 20_memory. -/

open Sys2Proof Sys2Proof.Machine

/-- Settles O19: the accepting turn raises the error, and before it only clocked counters moved. -/
theorem failureMakesNoTransfer : Obligations.FailureMakesNoTransfer := by
  intro s i r left later st hs ok hidle hw herr
  have hstep := step_turn_accept hs ok hidle hw
  rw [herr, enter_error] at hstep
  refine ⟨_, hstep, by simp [errorResponse], by simpa using hidle, by simp, by simp, by simp, by simp, fun j => ?_,
    fun j hj => step_turn_leftAlone hs hstep hj⟩
  obtain ⟨-, -, hregs⟩ := beginStep_leftAlone s j
  simpa using hregs

/-- Settles O34: a write list has one of the two shapes whose transfers are in their domains; the configurator of the decoded
operation says which, and so how long it is. -/
theorem everyTransferFitsItsRegister : Obligations.EveryTransferFitsItsRegister := by
  rintro c i r cc ws ⟨-, -, wf⟩ hdone
  refine ⟨(isWriteList_of_execRequest wf hdone).inDomain, ?_⟩
  obtain ⟨period, ie, hd, h⟩ | ⟨on, period, pin, ieA, ieB, hd, h⟩ := execRequest_done hdone
  · obtain ⟨-, -, idx, scaled, -, -, rfl⟩ := cfgCtc_done.mp h
    simp [hd, pack_ctc]
  · obtain ⟨-, -, -, idx, scaled, ch, b, -, -, -, rfl⟩ := cfgPwm_done.mp h
    simp [hd, pack_pwm]

/-- Settles O35: the write is read back where it fits its register, and a transfer touches no other part of the state. -/
theorem regWriteReplacesOneRegister : Obligations.RegWriteReplacesOneRegister := by
  intro s i id v hok
  have hfits := (transferOk_regWrite _ _ _ _).mp hok
  have hregs := s.perform_regs_same i (.regWrite id v)
  refine ⟨?_, fun id' hne => ?_, by simp, by simp, fun j hj => State.perform_inst_other s _ hj, by simp [Transfer.onGpio],
    by simp, by simp, by simp⟩
  · rw [hregs]
    exact RegBlock.read_write_same _ id v _ hfits
  · rw [hregs]
    exact RegBlock.read_write_other _ v hne

/-- Settles O36: by the rule for the bits after `DirSet`; nothing but `GPIO_DIR` is written. -/
theorem dirSetSetsOneBit : Obligations.DirSetSetsOneBit := by
  intro s i b
  refine ⟨?_, fun b' hne => ?_, fun j => State.setGpioDir_inst s _ j, by simp, by simp, by simp⟩
  · simp [State.isOutput_perform_dirSet]
  · simp [State.isOutput_perform_dirSet, hne]

/-- Settles O43: the transfers write two blocks, or one of them is `DirSet`. -/
theorem transfersOfTwoInstancesCommute : Obligations.TransfersOfTwoInstancesCommute :=
  fun s _ _ v w h => s.perform_comm_of_ne h v w

end

section
/-! PROOFS. The operation map and the decoder in terms of the fields of `CTRL`, and the words that the fields of a word are
written as (30_encoding R91, R99, R102, R107). -/

namespace Sys2Proof

/-! ### The operation map (30_encoding R99) -/

/-- The mask of the reserved field, bit by bit. -/
theorem reservedMask_getLsbD (k : Nat) : (0x00F0 : CtrlWord).getLsbD k = (decide (4 ≤ k) && decide (k < 8)) := by
  by_cases hk : k < 16
  · interval_cases k <;> rfl
  · rw [BitVec.getLsbD_of_ge _ _ (by omega)]
    simp [show ¬ k < 8 by omega]

/-- The mask of both rows, bit by bit: MODE and the reserved field. -/
theorem rowMask_getLsbD (k : Nat) :
    (0x00F1 : CtrlWord).getLsbD k = (decide (k = 0) || (decide (4 ≤ k) && decide (k < 8))) := by
  rw [show (0x00F1 : CtrlWord) = ctrlBit true 0 ||| 0x00F0 by decide, BitVec.getLsbD_or, reservedMask_getLsbD,
    ctrlBit_getLsbD _ _ _ (by omega), Bool.true_and]

theorem and_reservedMask_eq_zero_iff (c : CtrlWord) : c &&& 0x00F0 = 0 ↔ ctrlZero c = 0 := by
  rw [ctrlZero_eq_zero_iff, BitVec.eq_of_getLsbD_eq_iff]
  simp only [BitVec.getLsbD_and, reservedMask_getLsbD]
  constructor
  · intro h k h4 h8
    simpa [h4, h8] using h k (by omega)
  · intro h k _
    by_cases hk : 4 ≤ k ∧ k < 8
    · simp [h k hk.1 hk.2]
    · simp
      omega

/-- A word agrees, on the mask of the rows, with the word whose one bit is MODE when its reserved field is 0 and its MODE is
that bit. -/
theorem and_rowMask_eq_iff (c : CtrlWord) (m : Bool) :
    c &&& 0x00F1 = ctrlBit m 0 ↔ ctrlZero c = 0 ∧ ctrlMode c = m := by
  rw [ctrlZero_eq_zero_iff, BitVec.eq_of_getLsbD_eq_iff]
  simp only [BitVec.getLsbD_and, rowMask_getLsbD, ctrlBit_getLsbD m 0 _ (by omega)]
  constructor
  · intro h
    refine ⟨fun k h4 h8 => ?_, by simpa [ctrlMode] using h 0 (by omega)⟩
    simpa [h4, h8, show k ≠ 0 by omega] using h k (by omega)
  · rintro ⟨hzero, rfl⟩ k _
    by_cases h0 : k = 0
    · simp [h0, ctrlMode]
    · by_cases hk : 4 ≤ k ∧ k < 8
      · simp [hzero k hk.1 hk.2, h0]
      · simp [h0]
        omega

theorem ctcRow_matchesCtrl_iff (c : CtrlWord) :
    ctcRow.matchesCtrl c = true ↔ ctrlZero c = 0 ∧ ctrlMode c = false :=
  decide_eq_true_iff.trans (and_rowMask_eq_iff c false)

theorem pwmRow_matchesCtrl_iff (c : CtrlWord) :
    pwmRow.matchesCtrl c = true ↔ ctrlZero c = 0 ∧ ctrlMode c = true :=
  decide_eq_true_iff.trans (and_rowMask_eq_iff c true)

/-! ### When a record decodes to what (30_encoding R102, R104) -/

/-- A record is reserved, CFG.CTC or CFG.PWM, as the reserved field and MODE say. -/
theorem decode_cases (r : Request) :
    (ctrlZero r.ctrl ≠ 0 ∧ decode r = .error .reservedBits) ∨
    (ctrlZero r.ctrl = 0 ∧ ctrlMode r.ctrl = false ∧ decode r = .ok (.cfgCtc (sint r.period) (ctrlIea r.ctrl))) ∨
    (ctrlZero r.ctrl = 0 ∧ ctrlMode r.ctrl = true ∧
      decode r = .ok (.cfgPwm (sint r.on) (sint r.period)
        (if ctrlPinp r.ctrl = true then some (ctrlPin r.ctrl) else none) (ctrlIea r.ctrl) (ctrlIeb r.ctrl))) := by
  by_cases hz : ctrlZero r.ctrl = 0
  · cases hm : ctrlMode r.ctrl with
    | false => exact .inr (.inl ⟨hz, rfl, decode_ctc hz hm⟩)
    | true => exact .inr (.inr ⟨hz, rfl, decode_pwm hz hm⟩)
  · exact .inl ⟨hz, decode_reserved hz⟩

theorem decode_error_iff (r : Request) : decode r = .error .reservedBits ↔ ctrlZero r.ctrl ≠ 0 := by
  obtain ⟨hz, hd⟩ | ⟨hz, -, hd⟩ | ⟨hz, -, hd⟩ := decode_cases r
  · exact ⟨fun _ => hz, fun _ => hd⟩
  · simp [hd, hz]
  · simp [hd, hz]

theorem decode_cfgCtc_iff (r : Request) (period : Int) (ie : Bool) :
    decode r = .ok (.cfgCtc period ie) ↔
      ctrlZero r.ctrl = 0 ∧ ctrlMode r.ctrl = false ∧ period = sint r.period ∧ ie = ctrlIea r.ctrl := by
  obtain ⟨hz, hd⟩ | ⟨hz, hm, hd⟩ | ⟨hz, hm, hd⟩ := decode_cases r
  · exact ⟨fun h => (nomatch hd.symm.trans h), fun ⟨h, _⟩ => absurd h hz⟩
  · simp [hd, hz, hm, eq_comm]
  · simp [hd, hm]

theorem decode_cfgPwm_iff (r : Request) (on period : Int) (pin : Option PinId) (ieA ieB : Bool) :
    decode r = .ok (.cfgPwm on period pin ieA ieB) ↔
      ctrlZero r.ctrl = 0 ∧ ctrlMode r.ctrl = true ∧ on = sint r.on ∧ period = sint r.period ∧
        pin = (if ctrlPinp r.ctrl = true then some (ctrlPin r.ctrl) else none) ∧
        ieA = ctrlIea r.ctrl ∧ ieB = ctrlIeb r.ctrl := by
  obtain ⟨hz, hd⟩ | ⟨hz, hm, hd⟩ | ⟨hz, hm, hd⟩ := decode_cases r
  · exact ⟨fun h => (nomatch hd.symm.trans h), fun ⟨h, _⟩ => absurd h hz⟩
  · simp [hd, hm]
  · rw [hd]
    constructor
    · rintro ⟨⟩
      exact ⟨hz, hm, rfl, rfl, rfl, rfl, rfl⟩
    · rintro ⟨-, -, rfl, rfl, rfl, rfl, rfl⟩
      rfl

/-- A decoded operation is well-formed: its durations were read from duration words (30_encoding R92). -/
theorem wf_of_decode {r : Request} {i : Instr} (h : decode r = .ok i) : i.wf = true := by
  cases i with
  | cfgCtc period ie =>
    obtain ⟨-, -, rfl, -⟩ := (decode_cfgCtc_iff r _ _).mp h
    exact decide_eq_true (durationFits_sint _)
  | cfgPwm on period pin ieA ieB =>
    obtain ⟨-, -, rfl, rfl, -⟩ := (decode_cfgPwm_iff r _ _ _ _ _).mp h
    exact Bool.and_eq_true_iff.mpr ⟨decide_eq_true (durationFits_sint _), decide_eq_true (durationFits_sint _)⟩

/-! ### The fields of a word, written again (30_encoding R91, R107) -/

theorem encodeCtrl_iea_only (c : CtrlWord) : encodeCtrl false (ctrlIea c) false none = c &&& 0x0002 := by
  apply BitVec.eq_of_getLsbD_eq
  intro k hk
  rw [encodeCtrl_getLsbD, ctrlIea]
  interval_cases k <;> simp

theorem encodeCtrl_no_pin (c : CtrlWord) :
    encodeCtrl (ctrlMode c) (ctrlIea c) (ctrlIeb c) none = c &&& 0x0007 := by
  apply BitVec.eq_of_getLsbD_eq
  intro k hk
  rw [encodeCtrl_getLsbD, ctrlMode, ctrlIea, ctrlIeb]
  interval_cases k <;> simp

theorem encodeCtrl_with_pin {c : CtrlWord} (hzero : ctrlZero c = 0) (hpinp : ctrlPinp c = true) :
    encodeCtrl (ctrlMode c) (ctrlIea c) (ctrlIeb c) (some (ctrlPin c)) = c := by
  rw [ctrlZero_eq_zero_iff] at hzero
  rw [ctrlPinp] at hpinp
  apply BitVec.eq_of_getLsbD_eq
  intro k hk
  rw [encodeCtrl_getLsbD, ctrlMode, ctrlIea, ctrlIeb, Option.getD_some, ctrlPin, BitVec.getLsbD_extractLsb']
  by_cases h48 : 4 ≤ k ∧ k < 8
  · rw [hzero k h48.1 h48.2]
    simp
    omega
  · by_cases h8 : 8 ≤ k
    · simp [h8, show k - 8 < 8 by omega, show 8 + (k - 8) = k by omega, show k ≠ 0 by omega, show k ≠ 1 by omega,
        show k ≠ 2 by omega, show k ≠ 3 by omega]
    · have hlow : k < 4 := by omega
      interval_cases k <;> simp [hpinp]

end Sys2Proof
end

section
/-! PROOFS. EXEC by the decoded operation, and what it answers with (30_encoding R96, R98, R103). -/

namespace Sys2Proof.Machine

/-! ### EXEC by the decoded operation (30_encoding R103) -/

theorem execRequest_of_reserved {r : Request} (h : decode r = .error .reservedBits) (c : Config) (p : PeripheralSpec) :
    execRequest c p r = .error .badRequest := by
  simp only [execRequest, h]

theorem execRequest_of_cfgCtc {r : Request} {period : Int} {ie : Bool} (h : decode r = .ok (.cfgCtc period ie))
    (c : Config) (p : PeripheralSpec) : execRequest c p r = cfgCtc c p period ie := by
  simp only [execRequest, h]

theorem execRequest_of_cfgPwm {r : Request} {on period : Int} {pin : Option PinId} {ieA ieB : Bool}
    (h : decode r = .ok (.cfgPwm on period pin ieA ieB)) (c : Config) (p : PeripheralSpec) :
    execRequest c p r = cfgPwm c p on period pin ieA ieB := by
  simp only [execRequest, h]

/-! ### The status of an error -/

/-- The statuses CFG.PWM can end with (60_exceptions R217). -/
theorem cfgPwm_error {c : Config} {p : PeripheralSpec} {on period : Int} {pin : Option PinId} {ieA ieB : Bool} {st : Status}
    (h : cfgPwm c p on period pin ieA ieB = .error st) :
    st = .invalidDuration ∨ st = .rangeExceeded ∨ st = .dutyExceedsPeriod ∨ st = .invalidOutputPin := by
  unfold cfgPwm at h
  split at h
  · cases h; simp
  · split at h
    · cases h; simp
    · split at h
      · cases h; simp
      · split at h
        · cases h; simp
        · split at h <;> cases h; simp

/-- An error of EXEC never has the status of success. -/
theorem execRequest_error_ne_ok {c : Config} {p : PeripheralSpec} {r : Request} {st : Status}
    (h : execRequest c p r = .error st) : st ≠ .ok := by
  rintro rfl
  cases hd : decode r with
  | error e =>
    cases e
    cases (execRequest_of_reserved hd c p).symm.trans h
  | ok instr =>
    cases instr with
    | cfgCtc period ie => simpa using cfgCtc_error ((execRequest_of_cfgCtc hd c p).symm.trans h)
    | cfgPwm on period pin ieA ieB => simpa using cfgPwm_error ((execRequest_of_cfgPwm hd c p).symm.trans h)

/-- Only success has the code 0, and no status a code above 5 (30_encoding R98). -/
theorem statusCode_range (st : Status) : (statusCode st).toNat ≤ 5 ∧ (st ≠ .ok → 1 ≤ (statusCode st).toNat) := by
  cases st <;> decide

end Sys2Proof.Machine
end

section
/-! PROOFS. The statements of 30_encoding. -/

open Sys2Proof Sys2Proof.Machine

/-- Settles O1: the fields of the word written are the operands, and a duration that fits is read back from its word. -/
theorem decodeOfEncodeIsTheOperation : Obligations.DecodeOfEncodeIsTheOperation := by
  intro i hwf
  cases i with
  | cfgCtc period ie =>
    have hperiod : DurationFits period := of_decide_eq_true hwf
    refine (decode_cfgCtc_iff _ _ _).mpr ?_
    simp [encode, sint_ofInt hperiod]
  | cfgPwm on period pin ieA ieB =>
    obtain ⟨hon, hperiod⟩ := Bool.and_eq_true_iff.mp hwf
    refine (decode_cfgPwm_iff _ _ _ _ _ _).mpr ?_
    simp only [encode, ctrlZero_encodeCtrl, ctrlMode_encodeCtrl, ctrlPinp_encodeCtrl, ctrlPin_encodeCtrl,
      ctrlIea_encodeCtrl, ctrlIeb_encodeCtrl, sint_ofInt (of_decide_eq_true hon), sint_ofInt (of_decide_eq_true hperiod)]
    cases pin <;> simp

/-- Settles O2: a decoded operation holds the fields of the words it was read from, and these are the words they are written
as. -/
theorem encodeOfDecodeKeepsTheUsedFields : Obligations.EncodeOfDecodeKeepsTheUsedFields := by
  intro r i h
  refine ⟨wf_of_decode h, ?_⟩
  cases i with
  | cfgCtc period ie =>
    obtain ⟨-, -, rfl, rfl⟩ := (decode_cfgCtc_iff r _ _).mp h
    simp only [encode, encodeCtrl_iea_only, ofInt_sint]
  | cfgPwm on period pin ieA ieB =>
    obtain ⟨hzero, hmode, rfl, rfl, hpin, rfl, rfl⟩ := (decode_cfgPwm_iff r _ _ _ _ _).mp h
    by_cases hpinp : ctrlPinp r.ctrl = true
    · rw [if_pos hpinp] at hpin
      subst hpin
      simp only [encode, ← hmode, encodeCtrl_with_pin hzero hpinp, ofInt_sint]
    · rw [if_neg hpinp] at hpin
      subst hpin
      simp only [encode, ← hmode, encodeCtrl_no_pin, ofInt_sint]

/-- Settles O3: the rows and the decoder make the same two tests, of the reserved field and of MODE. -/
theorem controlWordsAreSplitByTheOperationMap : Obligations.ControlWordsAreSplitByTheOperationMap := by
  intro r
  rw [ctcRow_matchesCtrl_iff, pwmRow_matchesCtrl_iff, Ne, and_reservedMask_eq_zero_iff, decode_error_iff]
  refine ⟨?_, ?_, Iff.rfl, ?_⟩
  · simp [decode_cfgCtc_iff]
  · simp [decode_cfgPwm_iff]
  · rintro ⟨⟨-, hctc⟩, -, hpwm⟩
    cases hctc.symm.trans hpwm

/-- Settles O6: both records decode to CFG.CTC with the operands read from IEA and PERIOD alone. -/
theorem ctcIgnoredFieldsChangeNothing : Obligations.CtcIgnoredFieldsChangeNothing := by
  intro c p r r' hr hr' hiea hperiod
  have hctc : ∀ q : Request, q.ctrl &&& 0x00F1 = 0 →
      execRequest c p q = cfgCtc c p (sint q.period) (ctrlIea q.ctrl) := by
    intro q hq
    obtain ⟨hz, hm⟩ := (and_rowMask_eq_iff q.ctrl false).mp hq
    exact execRequest_of_cfgCtc (decode_ctc hz hm) c p
  rw [hctc r hr, hctc r' hr', hperiod, ctrlIea, ctrlIea, hiea]

/-- Settles O9: a record that does not decode has a reserved bit set, and one that has is an error of EXEC, answered as every
error is. -/
theorem reservedRequestIsAnsweredBadRequest : Obligations.ReservedRequestIsAnsweredBadRequest := by
  refine ⟨fun r hnone => ?_, fun s i r left later hs ok hidle hw hres => ?_⟩
  · rw [Ne, and_reservedMask_eq_zero_iff, ← Ne, ← decode_error_iff]
    cases hd : decode r with
    | error e => cases e; rfl
    | ok instr => exact absurd hd (hnone instr)
  · rw [Ne, and_reservedMask_eq_zero_iff] at hres
    have herr := execRequest_of_reserved (decode_reserved hres) s.cfg (s.spec i)
    obtain ⟨t, hstep, hrsp, hcond, hwaiting, hgpio, -, -, hregs, -⟩ :=
      failureMakesNoTransfer s i r left later .badRequest hs ok hidle hw herr
    exact ⟨t, hstep, hrsp, rfl, hcond, hwaiting, hgpio, hregs⟩

/-- Settles O22: the selector's index and counts are bounded by the spec, and only CFG.PWM gives an on-value. -/
theorem responseFitsItsRecord : Obligations.ResponseFitsItsRecord := by
  rintro c i r ⟨-, -, wf⟩
  cases hout : execRequest c (c.spec i) r with
  | error st =>
    obtain ⟨hmax, hmin⟩ := statusCode_range st
    exact ⟨hmin (execRequest_error_ne_ok hout), hmax⟩
  | done cc ws =>
    obtain ⟨period, ie, hd, h⟩ | ⟨on, period, pin, ieA, ieB, hd, h⟩ := execRequest_done hout
    · obtain ⟨-, -, idx, scaled, hsel, rfl, -⟩ := cfgCtc_done.mp h
      obtain ⟨hidx, hcode⟩ := divsel_index_lt wf hsel
      have htop := lt_two_pow_of_le_registerMax (divsel_le hsel).2
      exact ⟨rfl, hidx, Nat.lt_of_succ_lt hcode, htop, Nat.two_pow_pos _, by simp [responseOf, hd], fun _ => rfl⟩
    · obtain ⟨-, hle, -, idx, scaled, ch, b, hsel, -, rfl, -⟩ := cfgPwm_done.mp h
      obtain ⟨hidx, hcode⟩ := divsel_index_lt wf hsel
      have hhalf : ∀ v, v ≤ scaled → v / 2 < 2 ^ (c.spec i).width.bits := fun v hv =>
        lt_two_pow_of_le_registerMax ((Nat.div_le_self v 2).trans (hv.trans (divsel_le hsel).2))
      exact ⟨rfl, hidx, Nat.lt_of_succ_lt hcode, hhalf _ le_rfl, hhalf _ (reduce_on_le_scaled hsel hle),
        by simp [responseOf, hd], fun hvalid => by cases hvalid⟩

/-- Settles O4: the decoder evaluated on each of the five records. -/
theorem wordsOfTheSpecDecode : Obligations.WordsOfTheSpecDecode :=
  ⟨by decide, by decide, by decide, by decide, by decide⟩

/-- Settles O8: `exec` and EXEC give a decoded operation to the same configurator. -/
theorem execIsTheAcceptanceOfExecRequest : Obligations.ExecIsTheAcceptanceOfExecRequest := by
  intro s r instr hd
  cases instr with
  | cfgCtc period ie => rw [execRequest_of_cfgCtc hd]; rfl
  | cfgPwm on period pin ieA ieB => rw [execRequest_of_cfgPwm hd]; rfl

/-- Settles O21: the codes as they are defined, none above 5. -/
theorem statusCodesOfTheSpec : Obligations.StatusCodesOfTheSpec := by
  refine ⟨rfl, rfl, rfl, rfl, rfl, rfl, fun st => ?_⟩
  have hmax := (statusCode_range st).1
  exact ⟨fun h => absurd (h ▸ hmax) (by decide), fun h => absurd (h ▸ hmax) (by decide)⟩

end

section
/-! PROOFS. The selector and the scaler in closed form: one division by a running product (10_state R35, 40 R125, R129), what
a consistent spec adds to that (40 R127), and how far rounding down can miss (40 R134). -/

namespace Sys2Proof.Machine

/-! ### Running products and dividers (10_state R35) -/

/-- The running products do not decrease: each divides every later one. -/
theorem cumulative_mono {p : PeripheralSpec} (hsteps : ∀ f ∈ p.steps, 1 ≤ f) {i j : Nat} (hij : i ≤ j) :
    cumulative p i ≤ cumulative p j := by
  have hdvd : cumulative p i ∣ cumulative p j := (List.take_sublist_take_left (by omega)).prod_dvd_prod
  exact Nat.le_of_dvd (one_le_cumulative p hsteps j) hdvd

/-- On a consistent spec a divider of the sequence is the running product at its index. -/
theorem Consistent.divider_eq_cumulative {p : PeripheralSpec} (hcons : Consistent p) {i d : Nat}
    (hd : p.dividers[i]? = some d) : d = cumulative p i := by
  obtain ⟨hi, -⟩ := List.getElem?_eq_some_iff.mp hd
  exact Option.some.inj (hd.symm.trans (hcons i hi))

/-- On a consistent spec the largest divider is the last running product (40 R128). -/
theorem Consistent.maxDivider_eq_cumulative {p : PeripheralSpec} (hcons : Consistent p) (hlen : 1 ≤ p.dividers.length) :
    maxDivider p = cumulative p (p.dividers.length - 1) := by
  rw [maxDivider, List.getLast?_eq_getElem?, hcons _ (by omega), Option.getD_some]

/-! ### The selector and the reduction (40 R125, R129) -/

theorem reduce_eq_div_cumulative (raw : Nat) (p : PeripheralSpec) (idx : Nat) :
    reduce raw p idx = raw / cumulative p idx := foldl_div_eq_div_prod _ _

/-- The selector answers the least index whose running product brings the count into the register (40 R125). -/
theorem divsel_eq_some_iff (raw : Nat) (p : PeripheralSpec) (idx v : Nat) :
    divsel raw p = some (idx, v) ↔
      idx < p.steps.length ∧ v = raw / cumulative p idx ∧ raw / cumulative p idx ≤ p.registerMax ∧
        ∀ j, j < idx → p.registerMax < raw / cumulative p j := by
  simp only [divsel, selectFrom_eq_some, Nat.zero_add, cumulative]
  constructor
  · rintro ⟨k, hk, rfl, h⟩
    exact ⟨hk, h⟩
  · rintro ⟨hidx, h⟩
    exact ⟨idx, hidx, rfl, h⟩

/-- The selector fails when no index brings the count into the register (40 R125). -/
theorem divsel_eq_none_iff (raw : Nat) (p : PeripheralSpec) :
    divsel raw p = none ↔ ∀ j, j < p.steps.length → p.registerMax < raw / cumulative p j :=
  selectFrom_eq_none _ _ _ _

/-- On a consistent spec the last divider brings every count that passes the range test into the register (40 R127). -/
theorem divsel_ne_none_of_rangeOk {gpioW raw : Nat} {p : PeripheralSpec} (wf : p.WellFormed gpioW) (hcons : Consistent p)
    (hrange : rangeOk raw p = true) : divsel raw p ≠ none := by
  obtain ⟨⟨hlen, hone, -⟩, -⟩ := wf
  have hlast : raw ≤ p.registerMax * cumulative p (p.dividers.length - 1) := by
    rw [← hcons.maxDivider_eq_cumulative hone]
    exact of_decide_eq_true hrange
  have hfits : raw / cumulative p (p.dividers.length - 1) ≤ p.registerMax :=
    Nat.div_le_of_le_mul (by rwa [Nat.mul_comm])
  intro hnone
  exact Nat.not_lt.mpr hfits ((divsel_eq_none_iff raw p).mp hnone _ (by omega))

/-! ### Rounding down (40 R134) -/

theorem cycles_mul_tps_le (c : Config) (t : Nat) : cycles c t * c.tps ≤ t * c.fClk := Nat.div_mul_le_self _ _

theorem lt_cycles_add_one_mul_tps {c : Config} (htps : 1 ≤ c.tps) (t : Nat) : t * c.fClk < (cycles c t + 1) * c.tps :=
  (Nat.div_lt_iff_lt_mul htps).mp (Nat.lt_succ_self _)

/-- The scaled count times its divider misses the count by less than the divider. -/
theorem divsel_mul_cumulative_bounds {raw idx v : Nat} {p : PeripheralSpec} (hsteps : ∀ f ∈ p.steps, 1 ≤ f)
    (hsel : divsel raw p = some (idx, v)) :
    v * cumulative p idx ≤ raw ∧ raw < v * cumulative p idx + cumulative p idx := by
  obtain ⟨-, rfl, -⟩ := (divsel_eq_some_iff raw p idx v).mp hsel
  exact ⟨Nat.div_mul_le_self _ _, Nat.lt_div_mul_add (one_le_cumulative p hsteps idx)⟩

/-! ### A success starts its write list -/

/-- Accepting a success with a transfer to make leaves the instance Busy with its list (10_state R51). -/
theorem accept_of_done {s : State} (ok : s.cfg.OkFor s.active) (hidle : (s.inst s.active).cond = .idle) {out : OpResult}
    {cc : CounterConfig} {w : Transfer} {rest : List Transfer} (hout : out = .done cc (w :: rest)) :
    accept out s = .next (s.setCond s.active (.busy w rest (responseOf cc))) := by
  rw [accept_idle out s hidle ok, hout]
  rfl

end Sys2Proof.Machine
end

section
/-! PROOFS. The statements of 40_selector_and_scaler. -/

open Sys2Proof Sys2Proof.Machine

/-- Settles O24: the two forms of the scan's answer, and a quotient is at most the largest value exactly when it is below its
successor. -/
theorem selectorClosedForm : Obligations.SelectorClosedForm := by
  intro raw p hsteps
  refine ⟨divsel_eq_some_iff raw p, divsel_eq_none_iff raw p, fun j _ => ?_⟩
  rw [← Nat.lt_succ_iff, Nat.div_lt_iff_lt_mul (one_le_cumulative p hsteps j)]

/-- Settles O27: a reduction is one division by the running product, and so is the selector's scaled count. -/
theorem reduceShrinksInLockStep : Obligations.ReduceShrinksInLockStep :=
  fun p _ => ⟨fun _ _ _ hsel => (divsel_eq_reduce hsel).symm, fun raw idx => reduce_eq_div_cumulative raw p idx⟩

/-- Settles O25: the dividers are the running products, so a smaller divider stands at an earlier index, which the scan has
passed over. -/
theorem consistentSelectorFindsTheSmallestDivider : Obligations.ConsistentSelectorFindsTheSmallestDivider := by
  rintro gpioW raw idx v p wf hcons hsel
  have hidx := (divsel_index_lt wf hsel).1
  obtain ⟨-, rfl, hfits, hleast⟩ := (divsel_eq_some_iff raw p idx v).mp hsel
  obtain ⟨-, -, ⟨hsteps, -⟩, -⟩ := wf
  refine ⟨cumulative p idx, hcons idx hidx, rfl, hfits, fun j d' hd' hlt => ?_⟩
  cases hcons.divider_eq_cumulative hd'
  have hj : j < idx := Nat.lt_of_not_le fun hle => Nat.not_lt.mpr (cumulative_mono hsteps hle) hlt
  exact hleast j hj

/-- Settles O26: the last divider brings the count into the register. -/
theorem rangeTestMakesTheSelectorSucceed : Obligations.RangeTestMakesTheSelectorSucceed :=
  fun _ _ _ wf hcons hrange => divsel_ne_none_of_rangeOk wf hcons hrange

/-- Settles O17: the range test makes the selector succeed, so the configurator does, and its write list is not empty. -/
theorem requestsInRangeStartOnAConsistentSpec : Obligations.RequestsInRangeStartOnAConsistentSpec := by
  intro s ok hcons hidle
  have ⟨_, _, wf⟩ := ok
  have hselects : ∀ raw, rangeOk raw (s.spec s.active) = true → ∃ sel, divsel raw (s.spec s.active) = some sel :=
    fun _ hrange => Option.ne_none_iff_exists'.mp (divsel_ne_none_of_rangeOk wf hcons hrange)
  refine ⟨fun period ie hpos hraw => ?_, fun on period pin ieA ieB hon hle hraw hpin => ?_⟩
  · have hrange := decide_eq_true hraw
    obtain ⟨⟨idx, scaled⟩, hsel⟩ := hselects _ hrange
    have hdone := (cfgCtc_done (ie := ie)).mpr ⟨hpos, hrange, idx, scaled, hsel, rfl, rfl⟩
    rw [pack_ctc] at hdone
    exact ⟨_, _, _, accept_of_done ok hidle hdone, rfl⟩
  · have hrange := decide_eq_true hraw
    obtain ⟨⟨idx, scaled⟩, hsel⟩ := hselects _ hrange
    obtain ⟨⟨ch, b⟩, hch⟩ := Option.ne_none_iff_exists'.mp hpin
    have hdone := (cfgPwm_done (ieA := ieA) (ieB := ieB)).mpr ⟨hon, hle, hrange, idx, scaled, ch, b, hsel, hch, rfl, rfl⟩
    rw [pack_pwm] at hdone
    exact ⟨_, _, _, accept_of_done ok hidle hdone, rfl⟩

/-- Settles O28: CFG.CTC configures what the selector answers. -/
theorem ctcTopFitsTheRegister : Obligations.CtcTopFitsTheRegister := by
  intro c p period ie cc ws hlen h
  obtain ⟨-, -, idx, scaled, hsel, rfl, -⟩ := cfgCtc_done.mp h
  obtain ⟨hidx, htop⟩ := divsel_le hsel
  exact ⟨hlen ▸ hidx, htop, rfl⟩

/-- Settles O29: both thresholds are halved, the reduced on-count being at most the scaled period. -/
theorem pwmOnValueNeverExceedsTop : Obligations.PwmOnValueNeverExceedsTop := by
  intro c p on period pin ieA ieB cc ws hlen h
  obtain ⟨-, hle, -, idx, scaled, ch, b, hsel, -, rfl, -⟩ := cfgPwm_done.mp h
  obtain ⟨hidx, htop⟩ := divsel_le hsel
  exact ⟨hlen ▸ hidx, _, rfl, Nat.div_le_div_right (reduce_on_le_scaled hsel hle), Nat.div_le_div_right htop⟩

/-- Settles O30: the conversion to cycles rounds down by less than a cycle, the selector by less than its divider, halving by
less than one count; on a consistent spec the divider is the running product. -/
theorem configuredPeriodNeverOvershoots : Obligations.ConfiguredPeriodNeverOvershoots := by
  rintro c i ⟨-, htps, -, -, ⟨hsteps, -⟩, -⟩
  refine ⟨fun period ie cc ws h => ?_, fun on period pin ieA ieB cc ws h => ?_⟩
  · obtain ⟨-, -, idx, scaled, hsel, rfl, -⟩ := cfgCtc_done.mp h
    obtain ⟨hle, hlt⟩ := divsel_mul_cumulative_bounds hsteps hsel
    have hcycles := cycles_mul_tps_le c period.toNat
    have hover := calc period.toNat * c.fClk
        < (cycles c period.toNat + 1) * c.tps := lt_cycles_add_one_mul_tps htps _
      _ ≤ (scaled * cumulative (c.spec i) idx + cumulative (c.spec i) idx + 1) * c.tps :=
          Nat.mul_le_mul_right _ (by omega)
    refine ⟨hle, hcycles, hover, fun hcons d hd => ?_⟩
    cases hcons.divider_eq_cumulative hd
    exact ⟨hle, (Nat.mul_le_mul_right _ hle).trans hcycles, hover⟩
  · obtain ⟨-, -, -, idx, scaled, ch, b, hsel, -, rfl, -⟩ := cfgPwm_done.mp h
    have hle := calc 2 * (scaled / 2) * cumulative (c.spec i) idx
        ≤ scaled * cumulative (c.spec i) idx := Nat.mul_le_mul_right _ (Nat.mul_div_le _ _)
      _ ≤ cycles c period.toNat := (divsel_mul_cumulative_bounds hsteps hsel).1
    refine ⟨hle, fun hcons d hd => ?_⟩
    cases hcons.divider_eq_cumulative hd
    exact hle

/-- Settles O56: each stage does not decrease, and CFG.PWM applies the same stages to both durations. -/
theorem scalerNeverReversesTheOrder : Obligations.ScalerNeverReversesTheOrder := by
  refine ⟨fun c _ _ => cycles_mono c, fun p idx _ _ => reduce_mono p idx, fun _ _ => halve_mono, ?_, ?_⟩
  · intro c p on period idx scaled _ hle hsel
    have hscaled := reduce_on_le_scaled hsel hle
    exact ⟨cycles_mono c (Int.toNat_le_toNat hle), hscaled, halve_mono hscaled⟩
  · intro c p on period pin ieA ieB cc ws h
    obtain ⟨hon, hle, -, idx, scaled, ch, b, hsel, -, rfl, -⟩ := cfgPwm_done.mp h
    simp only [← halve_eq]
    exact ⟨hon, hle, idx, scaled, hsel, rfl, rfl, rfl, halve_mono (reduce_on_le_scaled hsel hle)⟩

end

section
/-! PROOFS. CFG.CTC: its write list and its errors written out, and the whole block after an operation whose last transfer
writes CNT (41_ctc R141 to R146). -/

namespace Sys2Proof.Machine

/-! ### What CFG.CTC returns -/

theorem layoutOk_of_okFor {c : Config} {i : InstId} (ok : c.OkFor i) : (c.spec i).layout.Ok := by
  obtain ⟨-, -, -, -, -, hlayout, -⟩ := ok
  exact hlayout

/-- The write list of CFG.CTC in numbers: one interrupt enable, the mode code 2 and no connect bit (41_ctc R143 to R145). -/
theorem pack_ctcFlags {l : Layout} (h : l.Ok) (idx top : Nat) (ie : Bool) :
    pack l .ctc idx (ctcFlags ie) top none none
      = [.regWrite .ien (if ie then 2 ^ l.ienAPos.val else 0), .regWrite .mode (2 * 2 ^ l.modePos.val),
          .regWrite .top top, .regWrite .div (idx + 1), .regWrite .cnt 0] := by
  obtain ⟨hpos, -, -, -, -, -, hien⟩ := h
  rw [pack_ctc, ienValue_toNat l hien, modeValue_ctc_toNat l hpos]
  cases ie <;> rfl

/-- CFG.CTC that passes its checks (41_ctc R142, R145). -/
theorem cfgCtc_of_divsel {c : Config} {p : PeripheralSpec} {period : Int} {idx scaled : Nat} (ie : Bool) (hl : p.layout.Ok)
    (hpos : 0 ≤ period) (hrange : rangeOk (cycles c period.toNat) p = true)
    (hsel : divsel (cycles c period.toNat) p = some (idx, scaled)) :
    cfgCtc c p period ie = .done ⟨idx, scaled, none⟩
      [.regWrite .ien (if ie then 2 ^ p.layout.ienAPos.val else 0), .regWrite .mode (2 * 2 ^ p.layout.modePos.val),
        .regWrite .top scaled, .regWrite .div (idx + 1), .regWrite .cnt 0] :=
  cfgCtc_done.mpr ⟨hpos, hrange, idx, scaled, hsel, rfl, (pack_ctcFlags hl idx scaled ie).symm⟩

/-- The first check of CFG.CTC: the sign of the period (41_ctc R141). -/
theorem cfgCtc_of_neg {period : Int} (hneg : period < 0) (c : Config) (p : PeripheralSpec) (ie : Bool) :
    cfgCtc c p period ie = .error .invalidDuration := if_pos hneg

/-- The second and the third check of CFG.CTC, the range test and the selector, fail with one status (41_ctc R141). -/
theorem cfgCtc_of_out_of_range {c : Config} {p : PeripheralSpec} {period : Int} (ie : Bool) (hpos : 0 ≤ period)
    (hfail : rangeOk (cycles c period.toNat) p = false ∨ divsel (cycles c period.toNat) p = none) :
    cfgCtc c p period ie = .error .rangeExceeded := by
  rw [cfgCtc, if_neg (Int.not_lt.mpr hpos)]
  split
  · rfl
  · next hrange => simp only [hfail.resolve_left hrange]

/-! ### The acceptance of an error -/

/-- Accepting an error changes the response wire and nothing else (60_exceptions R213). -/
theorem accept_of_error {s : State} (ok : s.cfg.OkFor s.active) (hidle : (s.inst s.active).cond = .idle) {out : OpResult}
    {st : Status} (hout : out = .error st) :
    accept out s = .next { s with rsp := some (s.active, ⟨st, 0, 0, false, 0⟩) } := by
  rw [accept_idle out s hidle ok, hout]
  rfl

/-! ### An operation whose last transfer writes CNT -/

/-- A block is what its seven registers hold (10_state R42). -/
theorem RegBlock.eq_of_read_eq {q r : RegBlock} (h : ∀ id, q.read id = r.read id) : q = r := by
  cases q
  cases r
  rw [RegBlock.mk.injEq]
  exact ⟨BitVec.eq_of_toNat_eq (h .ien), BitVec.eq_of_toNat_eq (h .mode), h .top, h .cmpA, h .cmpB,
    BitVec.eq_of_toNat_eq (h .div), h .cnt⟩

/-- The block of a `Busy` instance after its turn: the counters have moved, then its transfer was made (10_state R48, R51). -/
theorem step_turn_regs_of_busy {s t : State} {i : InstId} {w : Transfer} {rest : List Transfer} {rsp : Response}
    {later : List Event} (hs : s.schedule = .turn i :: later) (hc : (s.inst i).cond = .busy w rest rsp)
    (h : step s = .next t) : (t.inst i).regs = w.onRegs (s.beginStep.inst i).regs := by
  have hbusy : ((s.beginStep.setSchedule later).inst i).cond = .busy w rest rsp := by simpa using hc
  rw [step_turn hs, instanceTurn_busy hbusy] at h
  obtain ⟨-, -, rfl⟩ := makeTransfer_next h
  simp

/-- An operation whose list ends with a write of CNT leaves the whole block as the list makes it: the other registers by the
transfers up to there, and CNT by the last, after which no counter has moved (41_ctc R145, R146). -/
theorem runSteps_operation_cnt_last {s : State} {i : InstId} {r : Request} {left : List Request} {later : List Event}
    {cc : CounterConfig} {ws : List Transfer} {v : Nat} (ok : s.cfg.OkFor i) (hidle : (s.inst i).cond = .idle)
    (hw : (s.inst i).waiting = r :: left) (hdone : execRequest s.cfg (s.spec i) r = .done cc ws)
    (hlast : ws.getLast? = some (.regWrite .cnt v))
    (hs : s.schedule = List.replicate (ws.length + 1) (.turn i) ++ later) :
    ∃ t, runSteps (ws.length + 1) s = .next t ∧ s.PartWay i left ws (responseOf cc) later ws.length t ∧
      (t.inst i).regs = ((s.performAll i ws).inst i).regs := by
  obtain ⟨init, rfl⟩ := List.getLast?_eq_some_iff.mp hlast
  have hlen : (init ++ [Transfer.regWrite .cnt v]).length = init.length + 1 := by simp
  rw [hlen, List.replicate_succ', List.append_assoc] at hs
  obtain ⟨t, hrun, ht⟩ := runSteps_partWay ok hidle hw hdone (by omega) hs
  obtain ⟨t', hstep, ht'⟩ := ht.step_turn ok hdone (by omega)
  rw [hlen]
  refine ⟨t', runSteps_succ_of_next hrun hstep, ht', RegBlock.eq_of_read_eq fun id => ?_⟩
  by_cases hid : id = .cnt
  · have hbusy : (t.inst i).cond = .busy (.regWrite .cnt v) [] (responseOf cc) := by
      rw [ht.cond, List.drop_left]
      rfl
    rw [step_turn_regs_of_busy ht.schedule hbusy hstep, State.performAll_append, hid]
    simp [Transfer.onRegs, RegBlock.write, RegBlock.read]
  · have hregs := ht'.regs id hid
    rwa [List.take_of_length_le hlen.le] at hregs

end Sys2Proof.Machine
end

section
/-! PROOFS. The statements of 41_ctc_configurator. -/

open Sys2Proof Sys2Proof.Machine

/-- Settles O11: the acceptance of the success that the selector's answer makes of the request. -/
theorem ctcSuccessStartsItsWriteList : Obligations.CtcSuccessStartsItsWriteList := by
  intro s period ie idx scaled ok hidle hpos hrange hsel
  exact accept_of_done ok hidle (cfgCtc_of_divsel ie (layoutOk_of_okFor ok) hpos hrange hsel)

/-- Settles O12: each failing check makes an error of the request, whose acceptance drives the response wire only. -/
theorem ctcChecksFailInOrder : Obligations.CtcChecksFailInOrder := by
  intro s period ie ok hidle
  refine ⟨fun hneg => ?_, fun hpos hbig => ?_, fun hpos _ hnone => ?_⟩
  · exact accept_of_error ok hidle (cfgCtc_of_neg hneg _ _ ie)
  · have hrange := decide_eq_false (Nat.not_le.mpr hbig)
    exact accept_of_error ok hidle (cfgCtc_of_out_of_range ie hpos (.inl hrange))
  · exact accept_of_error ok hidle (cfgCtc_of_out_of_range ie hpos (.inr hnone))

/-- Settles O13: six turns accept the request and make its five transfers, the last of which writes CNT. -/
theorem ctcOperationFromAcceptToResponse : Obligations.CtcOperationFromAcceptToResponse := by
  intro s i r left later period ie idx scaled ok hidle hw hd hpos hrange hsel hs
  have hdone := (execRequest_of_cfgCtc hd s.cfg (s.spec i)).trans
    (cfgCtc_of_divsel ie (layoutOk_of_okFor ok) hpos hrange hsel)
  obtain ⟨t, hrun, ht, hregs⟩ := runSteps_operation_cnt_last ok hidle hw hdone rfl hs
  refine ⟨t, hrun, ht.wire, ht.cond, ht.waiting, ?_,
    by simpa [Transfer.onGpio] using ht.gpioDir, ht.schedule, ht.cfg, ht.others⟩
  rw [hregs, State.performAll_regs]
  rfl

end

section
/-! PROOFS. CFG.PWM: the channel of a pin, its write list and its errors written out, and an operation at a stopped counter,
which DIV, written last, starts only after it (42_pwm R161 to R166). -/

namespace Sys2Proof.Machine

/-! ### The channel of a pin (42_pwm R164) -/

theorem pinNamed_self (q : Pin) : pinNamed q.id (some q) = some q.gpioBit := if_pos rfl

theorem pinNamed_eq_none {id : PinId} {o : Option Pin} (h : ∀ q, o = some q → q.id ≠ id) : pinNamed id o = none := by
  cases o with
  | none => rfl
  | some q => exact if_neg (h q rfl)

/-- On a legal pin map the two pins have different identifiers (10_state R32 item 6). -/
theorem PinMap.id_ne_of_ok {gpioW : Nat} {m : PinMap} (h : m.Ok gpioW) {a b : Pin} (ha : m.pinA = some a)
    (hb : m.pinB = some b) : a.id ≠ b.id := by
  obtain ⟨-, -, hdistinct⟩ := h
  simp only [PinMap.distinct, ha, hb, Bool.and_eq_true, decide_eq_true_eq] at hdistinct
  exact hdistinct.1

theorem channelOf_of_pinA {p : PeripheralSpec} {q : Pin} (ha : p.pins.pinA = some q) :
    channelOf p (some q.id) = some (.a, q.gpioBit) := by
  simp only [channelOf, ha, pinNamed_self]

theorem channelOf_of_pinB {p : PeripheralSpec} {q : Pin} (ha : pinNamed q.id p.pins.pinA = none)
    (hb : p.pins.pinB = some q) : channelOf p (some q.id) = some (.b, q.gpioBit) := by
  simp only [channelOf, ha, hb, pinNamed_self]

theorem channelOf_of_unnamed {p : PeripheralSpec} {id : PinId} (ha : pinNamed id p.pins.pinA = none)
    (hb : pinNamed id p.pins.pinB = none) : channelOf p (some id) = none := by
  simp only [channelOf, ha, hb]

/-! ### What CFG.PWM returns -/

/-- The position of the channel's connect bit in MODE (10_state R44). -/
def Channel.connectPos (l : Layout) : Channel → Fin 8
  | .a => l.ocAPos
  | .b => l.ocBPos

/-- The write list of CFG.PWM in numbers: the interrupt enables asked for, the mode code 1 and the connect bit of the channel
(42_pwm R165, R166). -/
theorem pack_pwmFlags {l : Layout} (h : l.Ok) (idx top : Nat) (ieA ieB : Bool) (ch : Channel) (v b : Nat) :
    pack l .pwm idx (pwmFlags ieA ieB ch) top (some (ch, v)) (some b)
      = [.dirSet b,
          .regWrite .ien ((if ieA then 2 ^ l.ienAPos.val else 0) + (if ieB then 2 ^ l.ienBPos.val else 0)),
          .regWrite .mode (2 ^ l.modePos.val + 2 ^ (ch.connectPos l).val), .regWrite .top top,
          .regWrite ch.compareReg v, .regWrite .div (idx + 1)] := by
  have ⟨_, _, _, _, _, _, hien⟩ := h
  rw [pack_pwm, ienValue_toNat l hien, modeValue_pwm_toNat l h]
  cases ch <;> rfl

theorem pack_pwm_length (l : Layout) (idx : Nat) (f : PackFlags) (top : Nat) (ch : Channel) (v b : Nat) :
    (pack l .pwm idx f top (some (ch, v)) (some b)).length = 6 := by
  rw [pack_pwm]
  rfl

/-- No transfer of CFG.PWM but the last writes DIV (42_pwm R166). -/
theorem pack_pwm_dropLast_writes_no_div {l : Layout} {idx : Nat} {f : PackFlags} {top : Nat} {ch : Channel} {v b : Nat} :
    ∀ w ∈ (pack l .pwm idx f top (some (ch, v)) (some b)).dropLast, w.writesReg .div = false := by
  rw [pack_pwm]
  cases ch <;> simp [Transfer.writesReg, Channel.compareReg]

/-- CFG.PWM that passes its checks (42_pwm R162, R166). -/
theorem cfgPwm_of_divsel {c : Config} {p : PeripheralSpec} {on period : Int} {pin : Option PinId} {idx scaled : Nat}
    {ch : Channel} {gpioBit : Nat} (ieA ieB : Bool) (hon : 0 ≤ on) (hle : on ≤ period)
    (hrange : rangeOk (cycles c period.toNat) p = true) (hsel : divsel (cycles c period.toNat) p = some (idx, scaled))
    (hch : channelOf p pin = some (ch, gpioBit)) :
    cfgPwm c p on period pin ieA ieB = .done ⟨idx, scaled / 2, some (reduce (cycles c on.toNat) p idx / 2)⟩
      (pack p.layout .pwm idx (pwmFlags ieA ieB ch) (scaled / 2) (some (ch, reduce (cycles c on.toNat) p idx / 2))
        (some gpioBit)) :=
  cfgPwm_done.mpr ⟨hon, hle, hrange, idx, scaled, ch, gpioBit, hsel, hch, rfl, rfl⟩

/-- The first check of CFG.PWM: the signs of both durations (42_pwm R161). -/
theorem cfgPwm_of_neg {on period : Int} (hneg : on < 0 ∨ period < 0) (c : Config) (p : PeripheralSpec)
    (pin : Option PinId) (ieA ieB : Bool) : cfgPwm c p on period pin ieA ieB = .error .invalidDuration := if_pos hneg

/-- The second check of CFG.PWM: the duty (42_pwm R161). -/
theorem cfgPwm_of_duty {on period : Int} (hpos : 0 ≤ period) (hlt : period < on) (c : Config) (p : PeripheralSpec)
    (pin : Option PinId) (ieA ieB : Bool) : cfgPwm c p on period pin ieA ieB = .error .dutyExceedsPeriod := by
  rw [cfgPwm, if_neg (by omega), if_pos hlt]

/-- The third and the fourth check of CFG.PWM, the range test and the selector, fail with one status (42_pwm R161). -/
theorem cfgPwm_of_out_of_range {c : Config} {p : PeripheralSpec} {on period : Int} (pin : Option PinId) (ieA ieB : Bool)
    (hon : 0 ≤ on) (hle : on ≤ period)
    (hfail : rangeOk (cycles c period.toNat) p = false ∨ divsel (cycles c period.toNat) p = none) :
    cfgPwm c p on period pin ieA ieB = .error .rangeExceeded := by
  rw [cfgPwm, if_neg (by omega), if_neg (by omega)]
  split
  · rfl
  · next hrange => simp only [hfail.resolve_left hrange]

/-- The last check of CFG.PWM: the pin (42_pwm R161, R164). -/
theorem cfgPwm_of_no_pin {c : Config} {p : PeripheralSpec} {on period : Int} {pin : Option PinId} (ieA ieB : Bool)
    (hon : 0 ≤ on) (hle : on ≤ period) (hrange : rangeOk (cycles c period.toNat) p = true)
    (hsel : divsel (cycles c period.toNat) p ≠ none) (hpin : channelOf p pin = none) :
    cfgPwm c p on period pin ieA ieB = .error .invalidOutputPin := by
  obtain ⟨⟨idx, scaled⟩, hsel⟩ := Option.ne_none_iff_exists'.mp hsel
  rw [cfgPwm, if_neg (by omega), if_neg (by omega), if_neg (by simp [hrange])]
  simp only [hsel, hpin]

/-! ### The fields of IEN, read back -/

theorem ienIea_ienValue {l : Layout} (h : l.Ok) (f : PackFlags) : ienIea l (ienValue l f) = f.ieA := by
  obtain ⟨-, -, -, -, -, -, hien⟩ := h
  rw [ienIea, ienValue_getLsbD]
  simp [hien]

theorem ienIeb_ienValue {l : Layout} (h : l.Ok) (f : PackFlags) : ienIeb l (ienValue l f) = f.ieB := by
  obtain ⟨-, -, -, -, -, -, hien⟩ := h
  rw [ienIeb, ienValue_getLsbD]
  simp [hien.symm]

/-! ### The direction bits after the write list -/

theorem State.isOutput_perform_regWrite (s : State) (i : InstId) (id : RegId) (v b : Nat) :
    (s.perform i (.regWrite id v)).isOutput b = s.isOutput b := by
  rw [State.isOutput, State.perform_gpioDir, Transfer.onGpio, State.isOutput]

/-- The write list of CFG.PWM makes the pin an output and keeps every other direction bit (42_pwm R169). -/
theorem isOutput_performAll_pack_pwm (s : State) (i : InstId) (l : Layout) (idx : Nat) (f : PackFlags) (top : Nat)
    (ch : Channel) (v b b' : Nat) :
    (s.performAll i (pack l .pwm idx f top (some (ch, v)) (some b))).isOutput b' = (s.isOutput b' || decide (b' = b)) := by
  simp only [pack_pwm, State.performAll_cons, State.performAll_nil, State.isOutput_perform_regWrite,
    State.isOutput_perform_dirSet]

/-! ### An operation at a stopped counter -/

theorem RegBlock.write_compareReg_cnt (r : RegBlock) (ch : Channel) (v : Nat) :
    (r.write ch.compareReg v).cnt = r.cnt := by
  cases ch <;> rfl

/-- A stopped counter does not move between two steps, so the whole instance stays as it is (10_state R45, R48). -/
theorem State.beginStep_inst_of_stopped {s : State} {i : InstId} (hstop : clocked (s.inst i).regs = false) :
    s.beginStep.inst i = s.inst i := by
  rw [State.beginStep_inst, Inst.letCount_stopped _ _ _ hstop]

/-- A list of transfers keeps every register that none of them writes (20_memory R70). -/
theorem State.performAll_read_of_not_written (s : State) (i : InstId) {ws : List Transfer} {id : RegId}
    (h : ∀ w ∈ ws, w.writesReg id = false) : ((s.performAll i ws).inst i).regs.read id = (s.inst i).regs.read id := by
  induction ws generalizing s with
  | nil => rfl
  | cons w ws ih =>
    obtain ⟨hw, hws⟩ := List.forall_mem_cons.mp h
    rw [State.performAll_cons, ih _ hws, State.perform_regs_same]
    cases w with
    | dirSet b => rfl
    | regWrite id' v => exact RegBlock.read_write_other _ v (Ne.symm (of_decide_eq_false hw))

/-- Blocks that agree but for CNT are one block but for CNT. -/
theorem RegBlock.eq_of_read_eq_but_cnt {q r : RegBlock} (h : ∀ id, id ≠ .cnt → q.read id = r.read id) :
    q = { r with cnt := q.cnt } := by
  refine RegBlock.eq_of_read_eq fun id => ?_
  cases id with
  | cnt => rfl
  | _ => exact h _ (by decide)

/-- A stopped counter stays stopped until a turn after a write of DIV. So when at most the last transfer made writes DIV, the
whole block, CNT too, is what the transfers made of it (10_state R45, R48, R51). -/
theorem runSteps_regs_of_stopped {s t : State} {i : InstId} {r : Request} {left : List Request} {later : List Event}
    {cc : CounterConfig} {ws : List Transfer} {k : Nat} (ok : s.cfg.OkFor i) (hidle : (s.inst i).cond = .idle)
    (hw : (s.inst i).waiting = r :: left) (hdone : execRequest s.cfg (s.spec i) r = .done cc ws) (hk : k ≤ ws.length)
    (hs : s.schedule = List.replicate (k + 1) (.turn i) ++ later) (hstop : clocked (s.inst i).regs = false)
    (hdiv : ∀ w ∈ ws.take (k - 1), w.writesReg .div = false) (hrun : runSteps (k + 1) s = .next t) :
    (t.inst i).regs = ((s.performAll i (ws.take k)).inst i).regs := by
  induction k generalizing t later with
  | zero =>
    have hzero : runSteps 0 s = .next s := rfl
    cases (runSteps_succ_of_next hzero (step_turn_accept hs ok hidle hw)).symm.trans hrun
    simp [State.beginStep_inst_of_stopped hstop]
  | succ k ih =>
    rw [Nat.add_sub_cancel] at hdiv
    rw [List.replicate_succ', List.append_assoc] at hs
    obtain ⟨u, hu, hpart⟩ := runSteps_partWay ok hidle hw hdone (by omega) hs
    have hregs : (u.inst i).regs = ((s.performAll i (ws.take k)).inst i).regs :=
      ih (by omega) hs (fun w hmem => hdiv w (List.take_subset_take_left _ (Nat.sub_le k 1) hmem)) hu
    have hustop : clocked (u.inst i).regs = false := by
      rw [← hstop]
      apply clocked_eq_of_read_div
      rw [hregs, s.performAll_read_of_not_written i hdiv]
    obtain ⟨t', hstep, -⟩ := hpart.step_turn ok hdone hk
    cases (runSteps_succ_of_next hu hstep).symm.trans hrun
    have hbusy : (u.inst i).cond = .busy ws[k] (ws.drop (k + 1)) (responseOf cc) := by
      rw [hpart.cond, List.drop_eq_getElem_cons hk]
      rfl
    rw [step_turn_regs_of_busy hpart.schedule hbusy hstep, State.beginStep_inst_of_stopped hustop, hregs,
      State.performAll_take_succ s i hk, State.perform_regs_same]

/-- An operation in whose list no transfer but the last writes DIV leaves the block as the list makes it, but for CNT, and CNT
too where the counter was stopped (42_pwm R166, R173). -/
theorem runSteps_operation_div_last {s : State} {i : InstId} {r : Request} {left : List Request} {later : List Event}
    {cc : CounterConfig} {ws : List Transfer} (ok : s.cfg.OkFor i) (hidle : (s.inst i).cond = .idle)
    (hw : (s.inst i).waiting = r :: left) (hdone : execRequest s.cfg (s.spec i) r = .done cc ws)
    (hdiv : ∀ w ∈ ws.dropLast, w.writesReg .div = false)
    (hs : s.schedule = List.replicate (ws.length + 1) (.turn i) ++ later) :
    ∃ t, runSteps (ws.length + 1) s = .next t ∧ s.PartWay i left ws (responseOf cc) later ws.length t ∧
      (t.inst i).regs = { ((s.performAll i ws).inst i).regs with cnt := (t.inst i).regs.cnt } ∧
      (clocked (s.inst i).regs = false → (t.inst i).regs = ((s.performAll i ws).inst i).regs) := by
  obtain ⟨t, hrun, ht⟩ := runSteps_partWay ok hidle hw hdone le_rfl hs
  refine ⟨t, hrun, ht, ?_, fun hstop => ?_⟩
  · have hregs := RegBlock.eq_of_read_eq_but_cnt ht.regs
    rwa [List.take_length] at hregs
  · have hregs := runSteps_regs_of_stopped ok hidle hw hdone le_rfl hs hstop (by rwa [← List.dropLast_eq_take]) hrun
    rwa [List.take_length] at hregs

end Sys2Proof.Machine
end

section
/-! PROOFS. The statements of 42_pwm_configurator. -/

open Sys2Proof Sys2Proof.Machine

/-- Settles O14: the acceptance of the success that the selector's answer and the pin make of the request. -/
theorem pwmSuccessStartsItsWriteList : Obligations.PwmSuccessStartsItsWriteList := by
  intro s on period pin ieA ieB idx scaled ch gpioBit ok hidle hon hle hrange hsel hch
  have hdone := cfgPwm_of_divsel ieA ieB hon hle hrange hsel hch
  have hlayout : (s.spec s.active).layout.Ok := layoutOk_of_okFor ok
  rw [pack_pwmFlags hlayout] at hdone
  have haccept := accept_of_done ok hidle hdone
  cases ch with
  | a => exact haccept
  | b => exact haccept

/-- Settles O15: each failing check makes an error of the request, whose acceptance drives the response wire only. -/
theorem pwmChecksFailInOrder : Obligations.PwmChecksFailInOrder := by
  intro s on period pin ieA ieB ok hidle
  refine ⟨fun hneg => ?_, fun _ hpos hlt => ?_, fun hon hle hbig => ?_, fun hon hle _ hnone => ?_,
    fun hon hle hraw hsel hpin => ?_⟩
  · exact accept_of_error ok hidle (cfgPwm_of_neg hneg _ _ pin ieA ieB)
  · exact accept_of_error ok hidle (cfgPwm_of_duty hpos hlt _ _ pin ieA ieB)
  · have hrange := decide_eq_false (Nat.not_le.mpr hbig)
    exact accept_of_error ok hidle (cfgPwm_of_out_of_range pin ieA ieB hon hle (.inl hrange))
  · exact accept_of_error ok hidle (cfgPwm_of_out_of_range pin ieA ieB hon hle (.inr hnone))
  · have hrange := decide_eq_true hraw
    exact accept_of_error ok hidle (cfgPwm_of_no_pin ieA ieB hon hle hrange hsel hpin)

/-- Settles O16: seven turns accept the request and make its six transfers; only the last starts a stopped counter, so its
CNT has not moved. -/
theorem pwmOperationFromAcceptToResponse : Obligations.PwmOperationFromAcceptToResponse := by
  intro s i r left later on period pin ieA ieB idx scaled ch gpioBit ok hidle hw hd hon hle hrange hsel hch hs
  have hlayout := layoutOk_of_okFor ok
  have hdone := (execRequest_of_cfgPwm hd s.cfg (s.spec i)).trans (cfgPwm_of_divsel ieA ieB hon hle hrange hsel hch)
  obtain ⟨t, hrun, ht, hregs, hstopped⟩ :=
    runSteps_operation_div_last ok hidle hw hdone pack_pwm_dropLast_writes_no_div (by rwa [pack_pwm_length])
  rw [performAll_pack_pwm_regs] at hregs hstopped
  have hout : ∀ b, t.isOutput b = (s.isOutput b || decide (b = gpioBit)) := fun b => by
    rw [← isOutput_performAll_pack_pwm s i, State.isOutput, ht.gpioDir, List.take_length, State.isOutput]
  refine ⟨t, by rwa [pack_pwm_length] at hrun, by simpa [responseOf] using ht.wire,
    by simpa [Condition.ofPending] using ht.cond, ht.waiting, ?_⟩
  rw [hregs]
  refine ⟨ienIea_ienValue hlayout _, ienIeb_ienValue hlayout _, modeWgm_modeValue hlayout _ _,
    modeOca_modeValue hlayout _ _, modeOcb_modeValue hlayout _ _, rfl, rfl, ?_, fun hstop => ?_, hout, ht.schedule,
    ht.cfg, ht.others⟩
  · cases ch with
    | a => exact ⟨rfl, rfl⟩
    | b => exact ⟨rfl, rfl⟩
  · rw [hstopped hstop]
    exact RegBlock.write_compareReg_cnt _ _ _

/-- Settles O18: the first pin with the identifier named gives the channel, and on a legal pin map only one has it. -/
theorem channelOfThePinNamed : Obligations.ChannelOfThePinNamed := by
  intro gpioW p hpins
  refine ⟨rfl, fun q ha => channelOf_of_pinA ha, fun q hb => ?_, fun id hA hB => ?_⟩
  · exact channelOf_of_pinB (pinNamed_eq_none fun a ha => PinMap.id_ne_of_ok hpins ha hb) hb
  · exact channelOf_of_unnamed (pinNamed_eq_none hA) (pinNamed_eq_none hB)

end

section
/-! PROOFS. PACK: its control-register values as sums of shifted fields, the bits of DIV, and its list cut at the write of DIV
(43_packer R190 to R197). -/

namespace Sys2Proof.Machine

/-! ### IEN_VALUE and MODE_VALUE as sums (43_packer R197) -/

theorem flagBit_shiftLeft_toNat (b : Bool) (pos : Fin 8) : (flagBit b <<< pos.val).toNat = b.toNat * 2 ^ pos.val := by
  decide +revert

theorem wgmCode_shiftLeft_toNat (m : CountMode) (pos : Fin 8) (h : pos.val ≤ 6) :
    (wgmCode m <<< pos.val).toNat = (wgmCode m).toNat * 2 ^ pos.val := by
  cases m <;> decide +revert

/-- The or of two values with no bit in common is their sum. -/
theorem toNat_or_of_disjoint {v w : Reg8} (h : ∀ k, v.getLsbD k = true → w.getLsbD k = false) :
    (v ||| w).toNat = v.toNat + w.toNat := by
  have hand : v &&& w = 0#8 := by
    apply BitVec.eq_of_getLsbD_eq
    intro k _
    rw [BitVec.getLsbD_and, BitVec.getLsbD_zero]
    cases hv : v.getLsbD k with
    | false => rfl
    | true => rw [h k hv, Bool.and_false]
  rw [← BitVec.add_eq_or_of_and_eq_zero _ _ hand, BitVec.toNat_add_of_and_eq_zero hand]

/-- Or of a flag at a position where the value so far holds 0 adds the flag's shifted bit. -/
theorem or_flagBit_toNat {v : Reg8} {pos : Fin 8} (h : v.getLsbD pos.val = false) (b : Bool) :
    (v ||| flagBit b <<< pos.val).toNat = v.toNat + b.toNat * 2 ^ pos.val := by
  have hdisjoint : ∀ k, v.getLsbD k = true → (flagBit b <<< pos.val).getLsbD k = false := by
    intro k hk
    have hne : k ≠ pos.val := by
      rintro rfl
      exact Bool.false_ne_true (h.symm.trans hk)
    rw [flagBit_shiftLeft_getLsbD, decide_eq_false hne, Bool.and_false]
  rw [toNat_or_of_disjoint hdisjoint, flagBit_shiftLeft_toNat]

theorem ienValue_toNat_eq_sum {l : Layout} (h : l.Ok) (f : PackFlags) :
    (ienValue l f).toNat = f.ieA.toNat * 2 ^ l.ienAPos.val + f.ieB.toNat * 2 ^ l.ienBPos.val := by
  obtain ⟨-, -, -, -, -, -, hien⟩ := h
  have hfree : (flagBit f.ieA <<< l.ienAPos.val).getLsbD l.ienBPos.val = false := by
    rw [flagBit_shiftLeft_getLsbD, decide_eq_false hien.symm, Bool.and_false]
  rw [ienValue, or_flagBit_toNat hfree, flagBit_shiftLeft_toNat]

theorem modeValue_toNat_eq_sum {l : Layout} (h : l.Ok) (m : CountMode) (f : PackFlags) :
    (modeValue l m f).toNat = (wgmCode m).toNat * 2 ^ l.modePos.val
      + f.ocA.toNat * 2 ^ l.ocAPos.val + f.ocB.toNat * 2 ^ l.ocBPos.val := by
  obtain ⟨hpos, hab, ham, ham1, hbm, hbm1, -⟩ := h
  have hfreeA : (wgmCode m <<< l.modePos.val).getLsbD l.ocAPos.val = false := by
    rw [wgmCode_shiftLeft_getLsbD m _ hpos]
    cases m <;> simp [ham, ham1]
  have hfreeB : (wgmCode m <<< l.modePos.val ||| flagBit f.ocA <<< l.ocAPos.val).getLsbD l.ocBPos.val = false := by
    rw [BitVec.getLsbD_or, wgmCode_shiftLeft_getLsbD m _ hpos, flagBit_shiftLeft_getLsbD]
    cases m <;> simp [hab.symm, hbm, hbm1]
  rw [modeValue, or_flagBit_toNat hfreeB, or_flagBit_toNat hfreeA, wgmCode_shiftLeft_toNat m _ hpos]

/-! ### The bits no field occupies (43_packer R194, R195) -/

theorem ienValue_getLsbD_of_ne {l : Layout} (f : PackFlags) {b : Nat} (hA : b ≠ l.ienAPos.val) (hB : b ≠ l.ienBPos.val) :
    (ienValue l f).getLsbD b = false := by
  rw [ienValue_getLsbD]
  simp [hA, hB]

theorem modeValue_getLsbD_of_ne {l : Layout} (h : l.Ok) (m : CountMode) (f : PackFlags) {b : Nat}
    (h0 : b ≠ l.modePos.val) (h1 : b ≠ l.modePos.val + 1) (hA : b ≠ l.ocAPos.val) (hB : b ≠ l.ocBPos.val) :
    (modeValue l m f).getLsbD b = false := by
  obtain ⟨hpos, -⟩ := h
  rw [modeValue_getLsbD l hpos]
  cases m <;> simp [h0, h1, hA, hB]

/-! ### The divider code (43_packer R193) -/

theorem divValue_lt_of_index {gpioW idx : Nat} {p : PeripheralSpec} (wf : p.WellFormed gpioW)
    (hidx : idx < p.dividers.length) : divValue idx < 2 ^ 3 := by
  obtain ⟨⟨-, -, hmax⟩, -⟩ := wf
  rw [divValue]
  omega

theorem divCs_divValue_ne_zero {idx : Nat} (h : divValue idx < 2 ^ 3) : divCs (BitVec.ofNat 8 (divValue idx)) ≠ 0 := by
  intro hzero
  have hcode := divCs_code_toNat h
  rw [hzero] at hcode
  exact absurd hcode.symm (Nat.succ_ne_zero idx)

theorem code_getLsbD_of_le {code : Nat} (h : code < 2 ^ 3) {b : Nat} (hb : 3 ≤ b) :
    (BitVec.ofNat 8 code).getLsbD b = false := by
  rw [BitVec.getLsbD_ofNat, Nat.testBit_lt_two_pow (h.trans_le (Nat.pow_le_pow_right Nat.two_pos hb)), Bool.and_false]

/-! ### The list of PACK, cut at its write of DIV (43_packer R190, R191) -/

/-- A list of PACK is a part that writes MODE and no DIV, the write of DIV, and a part that writes nothing but CNT. -/
theorem pack_eq_append_div (l : Layout) (m : CountMode) (idx : Nat) (f : PackFlags) (top : Nat) (on : Option (Channel × Nat))
    (dir : Option Nat) :
    ∃ front tail, pack l m idx f top on dir = front ++ .regWrite .div (divValue idx) :: tail ∧
      (∃ x ∈ front, x.writesReg .mode = true) ∧ (∀ x ∈ front, x.writesReg .div = false) ∧
      ∀ x ∈ tail, x = .regWrite .cnt 0 := by
  refine ⟨_, _, (List.append_assoc _ _ _).trans rfl, ⟨.regWrite .mode (modeValue l m f).toNat, by simp, rfl⟩, ?_, ?_⟩
  · match on, dir with
    | none, none | none, some _ | some (.a, _), none | some (.a, _), some _ | some (.b, _), none | some (.b, _), some _ =>
      simp [Transfer.writesReg]
  · cases m <;> simp

/-- PACK writes DIV once, so a cut of its list at a write of DIV is that cut. -/
theorem pack_cut_at_div {l : Layout} {m : CountMode} {idx : Nat} {f : PackFlags} {top : Nat} {on : Option (Channel × Nat)}
    {dir : Option Nat} {before after : List Transfer} {w : Transfer}
    (h : pack l m idx f top on dir = before ++ w :: after) (hw : w.writesReg .div = true) :
    (∃ x ∈ before, x.writesReg .mode = true) ∧ ∀ x ∈ after, x = .regWrite .cnt 0 := by
  obtain ⟨front, tail, heq, hmode, hfront, htail⟩ := pack_eq_append_div l m idx f top on dir
  have hwfront : w ∉ front := fun hmem => Bool.false_ne_true ((hfront w hmem).symm.trans hw)
  have hwtail : w ∉ tail := fun hmem => by simp [htail w hmem, Transfer.writesReg] at hw
  obtain ⟨rfl, -, rfl⟩ := (List.append_cons_inj_of_notMem hwfront hwtail).mp (heq.symm.trans h)
  exact ⟨hmode, htail⟩

end Sys2Proof.Machine
end

section
/-! PROOFS. The statements of 43_register_bit_packer. -/

open Sys2Proof Sys2Proof.Machine

/-- Settles O31: the fields lie at different positions of a legal layout, so each bit has one field at most, and or is plus. -/
theorem packedFieldsReadBack : Obligations.PackedFieldsReadBack := by
  intro l m f h
  refine ⟨ienIea_ienValue h f, ienIeb_ienValue h f, ?_, modeOca_modeValue h m f, modeOcb_modeValue h m f,
    fun b hA hB => ienValue_getLsbD_of_ne f hA hB, fun b h0 h1 hA hB => modeValue_getLsbD_of_ne h m f h0 h1 hA hB,
    ienValue_toNat_eq_sum h f, ?_⟩
  · rw [modeWgm_modeValue h]
    cases m <;> rfl
  · rw [modeValue_toNat_eq_sum h]
    cases m <;> rfl

/-- Settles O32: a well-formed spec has at most seven dividers, so the code fits the three bits of CS. -/
theorem dividerCodeIsIndexPlusOne : Obligations.DividerCodeIsIndexPlusOne := by
  intro gpioW idx p wf hidx
  have hcode := divValue_lt_of_index wf hidx
  exact ⟨rfl, Nat.le_of_lt_succ hcode, divCs_code_toNat hcode, divCs_divValue_ne_zero hcode,
    fun b hb => code_getLsbD_of_le hcode hb⟩

/-- Settles O33: what stands before the write of DIV holds the write of MODE, and only CNT is written after it. -/
theorem modeIsWrittenBeforeDiv : Obligations.ModeIsWrittenBeforeDiv := by
  intro l m idx f top on dir before after w h hw
  obtain ⟨hmode, hafter⟩ := pack_cut_at_div h hw
  refine ⟨hmode, fun x hx id hid => ?_⟩
  rw [hafter x hx]
  obtain rfl | rfl | rfl | rfl := hid <;> rfl

end

section
/-! PROOFS. Each status of the table occurs: records for the reference instance T16 that end with it (60_exceptions R217). -/

namespace Sys2Proof.Machine

/-- A negative period, and the longest, end CFG.CTC with its two errors. -/
theorem cfgCtc_error_occurs {st : Status} (h : st = .invalidDuration ∨ st = .rangeExceeded) :
    ∃ r period ie, decode r = .ok (.cfgCtc period ie) ∧
      execRequest Config.reference PeripheralSpec.t16Reference r = .error st := by
  obtain rfl | rfl := h
  · exact ⟨⟨0x0000, -1, 0⟩, -1, false, by decide, by decide⟩
  · exact ⟨⟨0x0000, 0x7FFFFFFFFFFFFFFF, 0⟩, 2 ^ 63 - 1, false, by decide, by decide⟩

/-- A negative period, the longest, an on-time above the period, and no pin end CFG.PWM with its four errors. -/
theorem cfgPwm_error_occurs {st : Status}
    (h : st = .invalidDuration ∨ st = .rangeExceeded ∨ st = .dutyExceedsPeriod ∨ st = .invalidOutputPin) :
    ∃ r on period pin ieA ieB, decode r = .ok (.cfgPwm on period pin ieA ieB) ∧
      execRequest Config.reference PeripheralSpec.t16Reference r = .error st := by
  obtain rfl | rfl | rfl | rfl := h
  · exact ⟨⟨0x0001, -1, 0⟩, 0, -1, none, false, false, by decide, by decide⟩
  · exact ⟨⟨0x0001, 0x7FFFFFFFFFFFFFFF, 0⟩, 0, 2 ^ 63 - 1, none, false, false, by decide, by decide⟩
  · exact ⟨⟨0x0001, 0, 1⟩, 1, 0, none, false, false, by decide, by decide⟩
  · exact ⟨⟨0x0001, 0, 0⟩, 0, 0, none, false, false, by decide, by decide⟩

/-- A period of 4 ms, 64000 cycles, is one that CFG.CTC can configure without dividing the clock. -/
theorem cfgCtc_success_occurs :
    decode ⟨0x0002, 4000000, 0⟩ = .ok (.cfgCtc 4000000 true) ∧
    execRequest Config.reference PeripheralSpec.t16Reference ⟨0x0002, 4000000, 0⟩ = .done ⟨0, 64000, none⟩
      [.regWrite .ien 2, .regWrite .mode 2, .regWrite .top 64000, .regWrite .div 1, .regWrite .cnt 0] := by
  decide

/-- 1 ms of 2 ms at pin 2, channel A, is what CFG.PWM can configure without dividing the clock. -/
theorem cfgPwm_success_occurs :
    decode ⟨0x0209, 2000000, 1000000⟩ = .ok (.cfgPwm 1000000 2000000 (some 2) false false) ∧
    execRequest Config.reference PeripheralSpec.t16Reference ⟨0x0209, 2000000, 1000000⟩ = .done ⟨0, 16000, some 8000⟩
      [.dirSet 2, .regWrite .ien 0, .regWrite .mode 0x21, .regWrite .top 16000, .regWrite .cmpA 8000, .regWrite .div 1] := by
  decide

end Sys2Proof.Machine
end

section
/-! PROOFS. The statements of 60_exceptions. -/

open Sys2Proof Sys2Proof.Machine

/-- Settles O20: an error of EXEC is BadRequest or comes from a check of the decoded operation's configurator; records
for the reference instance T16 end with each. -/
theorem statusesOfEachOperation : Obligations.StatusesOfEachOperation := by
  have ok : Config.reference.OkFor .t16 := Config.reference_wellFormed .t16
  refine ⟨fun c p r st h => ?_, fun st hst => ?_, fun st hst => ?_, ?_, ?_, ?_,
    fun c p r hd => execRequest_of_reserved hd c p⟩
  · cases hd : decode r with
    | error e =>
      cases e
      cases (execRequest_of_reserved hd c p).symm.trans h
      rfl
    | ok instr =>
      cases instr with
      | cfgCtc period ie => exact cfgCtc_error ((execRequest_of_cfgCtc hd c p).symm.trans h)
      | cfgPwm on period pin ieA ieB => exact cfgPwm_error ((execRequest_of_cfgPwm hd c p).symm.trans h)
  · obtain ⟨r, period, ie, hd, h⟩ := cfgCtc_error_occurs hst
    exact ⟨_, _, r, period, ie, ok, hd, h⟩
  · obtain ⟨r, on, period, pin, ieA, ieB, hd, h⟩ := cfgPwm_error_occurs hst
    exact ⟨_, _, r, on, period, pin, ieA, ieB, ok, hd, h⟩
  · obtain ⟨hd, h⟩ := cfgCtc_success_occurs
    exact ⟨_, _, _, _, _, _, _, ok, hd, h⟩
  · obtain ⟨hd, h⟩ := cfgPwm_success_occurs
    exact ⟨_, _, _, _, _, _, _, _, _, _, ok, hd, h⟩
  · exact ⟨_, _, ⟨0x0010, 0, 0⟩, ok, by decide⟩

end

section
/-! PROOFS. An operation among the acts of other agents: what every event leaves of the schedule and of a condition, and that
the turns of a Busy instance alone bring it to its response (70_reset R253, R254, R256). -/

namespace Sys2Proof.Machine

/-! ### The events still to come -/

/-- No event uses up another. -/
theorem handleEvent_schedule {e : Event} {s t : State} (h : handleEvent e s = .next t) : t.schedule = s.schedule := by
  cases e with
  | turn i => exact instanceTurn_schedule h
  | present i r => cases h; exact State.setWaiting_schedule s i _
  | outsideWrite i id v => cases h; exact State.setRegs_schedule s i _
  | outsideDir v => cases h; rfl
  | powerUp c => cases h; rfl

/-- A step uses up the first event of the schedule, and no more. -/
theorem step_schedule {s t : State} {e : Event} {later : List Event} (hs : s.schedule = e :: later)
    (h : step s = .next t) : t.schedule = later :=
  handleEvent_schedule ((step_event hs).symm.trans h)

/-! ### The condition of an instance under the acts of others -/

@[simp] theorem State.present_cond (s : State) (i j : InstId) (r : Request) :
    ((s.present j r).inst i).cond = (s.inst i).cond := by
  by_cases hi : i = j
  · subst hi; simp [State.present]
  · rw [State.present, State.setWaiting_inst_other s _ hi]

@[simp] theorem State.outsideWrite_cond (s : State) (i j : InstId) (id : RegId) (v : Nat) :
    ((s.outsideWrite j id v).inst i).cond = (s.inst i).cond := by
  by_cases hi : i = j
  · subst hi; simp [State.outsideWrite]
  · rw [State.outsideWrite, State.setRegs_inst_other s _ hi]

@[simp] theorem State.outsideDir_cond (s : State) (i : InstId) (v : Nat) :
    ((s.outsideDir v).inst i).cond = (s.inst i).cond := by
  simp [State.outsideDir]

theorem Event.isTurnOf_eq_true {e : Event} {i : InstId} : e.isTurnOf i = true ↔ e = .turn i := by
  cases e <;> simp [Event.isTurnOf]

/-- Only its own turn and a power cycle change the condition of an instance: no other agent cancels an operation or makes
progress in its place (70_reset R256). -/
theorem handleEvent_cond_of_others {e : Event} {s t : State} {i : InstId} (hturn : e.isTurnOf i = false)
    (hpower : e.isPowerUp = false) (h : handleEvent e s = .next t) : (t.inst i).cond = (s.inst i).cond := by
  cases e with
  | turn j =>
    have hij : i ≠ j := fun hij => by simp [Event.isTurnOf, hij] at hturn
    rw [instanceTurn_inst_other h hij]
  | present j r => cases h; exact State.present_cond s i j r
  | outsideWrite j id v => cases h; exact State.outsideWrite_cond s i j id v
  | outsideDir v => cases h; exact State.outsideDir_cond s i v
  | powerUp c => cases hpower

/-- The same of a whole step: the counters' movement changes no condition either. -/
theorem step_cond_of_others {s t : State} {i : InstId} {e : Event} {later : List Event} (hs : s.schedule = e :: later)
    (hturn : e.isTurnOf i = false) (hpower : e.isPowerUp = false) (h : step s = .next t) :
    (t.inst i).cond = (s.inst i).cond := by
  simpa using handleEvent_cond_of_others hturn hpower ((step_event hs).symm.trans h)

/-- A turn of a `Busy` instance takes one transfer off its list; after the last it is `Idle` and drives the response held
(10_state R51). -/
theorem step_turn_cond_rsp_of_busy {s t : State} {i : InstId} {w : Transfer} {rest : List Transfer} {rsp : Response}
    {later : List Event} (hs : s.schedule = .turn i :: later) (hc : (s.inst i).cond = .busy w rest rsp)
    (h : step s = .next t) :
    (t.inst i).cond = .ofPending rsp rest ∧ t.rsp = if rest = [] then some (i, rsp) else none := by
  have hbusy : ((s.beginStep.setSchedule later).inst i).cond = .busy w rest rsp := by simpa using hc
  rw [step_turn hs, instanceTurn_busy hbusy] at h
  obtain ⟨-, -, rfl⟩ := makeTransfer_next h
  exact ⟨continueWith_cond_eq_ofPending i rest rsp _, continueWith_rsp_of_none i rest rsp (by simp)⟩

/-! ### The length of an operation -/

theorem IsWriteList.length_le {c : Config} {p : PeripheralSpec} {ws : List Transfer} (h : IsWriteList c p ws) :
    ws.length ≤ 6 := by
  cases h with
  | ctc => simp
  | pwm => simp

/-- No operation has more than six transfers left (41_ctc R145, 42_pwm R166). -/
theorem LeftOfOperation.length_le {c : Config} {p : PeripheralSpec} {pending : List Transfer} {rsp : Response}
    (wf : p.WellFormed c.gpioW) (h : LeftOfOperation c p pending rsp) : pending.length ≤ 6 := by
  obtain ⟨r, cc, made, hdone, -⟩ := h
  have hlen := (isWriteList_of_execRequest wf hdone).length_le
  rw [List.length_append] at hlen
  omega

/-! ### The run to the response -/

theorem runSteps_succ_eq_of_step {n : Nat} {s t : State} (h : step s = .next t) : runSteps (n + 1) s = runSteps n t := by
  rw [runSteps, h]

/-- Whatever acts short of a power cycle stand among them, the turns of a `Busy` instance, one for each transfer left, bring it
to its response: a turn of its own shortens its list, any other act leaves its condition as it was (70_reset R254, R256). -/
theorem runSteps_answers_busy {s : State} {i : InstId} {w : Transfer} {rest : List Transfer} {rsp : Response}
    {acts later : List Event} (inv : s.Inv) (hc : (s.inst i).cond = .busy w rest rsp)
    (hs : s.schedule = acts ++ .turn i :: later) (hpower : ∀ e ∈ acts, e.isPowerUp = false)
    (hcount : acts.countP (Event.isTurnOf i) = rest.length) :
    ∃ t, runSteps (acts.length + 1) s = .next t ∧ t.rsp = some (i, rsp) ∧ (t.inst i).cond = .idle ∧
      t.schedule = later := by
  induction acts generalizing s w rest with
  | nil =>
    obtain ⟨t, hstep⟩ := theMachineNeverStops s inv
    obtain rfl : rest = [] := List.length_eq_zero_iff.mp hcount.symm
    obtain ⟨hcond, hrsp⟩ := step_turn_cond_rsp_of_busy hs hc hstep
    exact ⟨t, runSteps_succ_of_next rfl hstep, by simpa using hrsp, hcond, step_schedule hs hstep⟩
  | cons e acts ih =>
    obtain ⟨u, hu⟩ := theMachineNeverStops s inv
    obtain ⟨hpowerE, hpowerActs⟩ := List.forall_mem_cons.mp hpower
    have invU : u.Inv := everyStepKeepsTheInvariant s u inv hu
    have hsU : u.schedule = acts ++ .turn i :: later := step_schedule hs hu
    rw [List.length_cons, runSteps_succ_eq_of_step hu]
    cases hturn : e.isTurnOf i with
    | false =>
      have hcU : (u.inst i).cond = .busy w rest rsp := (step_cond_of_others hs hturn hpowerE hu).trans hc
      rw [List.countP_cons_of_neg (by simp [hturn])] at hcount
      exact ih invU hcU hsU hpowerActs hcount
    | true =>
      rw [List.countP_cons_of_pos hturn] at hcount
      obtain ⟨w', rest', rfl⟩ := List.exists_cons_of_length_eq_add_one hcount.symm
      obtain rfl : e = .turn i := Event.isTurnOf_eq_true.mp hturn
      obtain ⟨hcU, -⟩ := step_turn_cond_rsp_of_busy hs hc hu
      exact ih invU hcU hsU hpowerActs (by simpa using hcount)

end Sys2Proof.Machine
end

section
/-! PROOFS. The statements of 70_reset_and_hazards. -/

open Sys2Proof Sys2Proof.Machine

/-- Settles O55: the list held is what is left of an operation, so it has at most six transfers; that the instance's own turns
bring it to its response is by induction on the events. -/
theorem acceptedOperationIsAlwaysAnswered : Obligations.AcceptedOperationIsAlwaysAnswered := by
  intro s i w rest rsp acts later inv hc hs hpower hcount
  refine ⟨?_, runSteps_answers_busy inv hc hs hpower hcount⟩
  have hleft := inv.cond i
  rw [hc] at hleft
  obtain ⟨-, -, wf⟩ := inv.config i
  exact LeftOfOperation.length_le wf hleft

end

section
/-! PROOFS. The acts of the host and of other code, one rule each, and what the choice with an empty schedule and a refusal at
acceptance come to (00_scope R20, 10_state R32, R49, R51, R55, 70_reset R240, R252, R253). -/

namespace Sys2Proof.Machine

/-! ### The state an event meets -/

/-- Before the act of a scheduled event only clocked counters moved. -/
theorem setSchedule_beginStep_leftAlone (s : State) (later : List Event) (i : InstId) :
    (s.inst i).LeftAlone ((s.beginStep.setSchedule later).inst i) := by
  rw [State.setSchedule_inst]
  exact beginStep_leftAlone s i

/-! ### The host presents a request (30_encoding R90, log 8) -/

@[simp] theorem State.present_inst_same (s : State) (i : InstId) (r : Request) :
    (s.present i r).inst i = { s.inst i with waiting := (s.inst i).waiting ++ [r] } :=
  State.setWaiting_inst_same s i _

theorem State.present_inst_other (s : State) (r : Request) {i j : InstId} (h : j ≠ i) :
    (s.present i r).inst j = s.inst j := State.setWaiting_inst_other s _ h

@[simp] theorem State.present_gpioDir (s : State) (i : InstId) (r : Request) : (s.present i r).gpioDir = s.gpioDir :=
  State.setWaiting_gpioDir s i _
@[simp] theorem State.present_rsp (s : State) (i : InstId) (r : Request) : (s.present i r).rsp = s.rsp :=
  State.setWaiting_rsp s i _
@[simp] theorem State.present_schedule (s : State) (i : InstId) (r : Request) : (s.present i r).schedule = s.schedule :=
  State.setWaiting_schedule s i _

/-! ### Other code writes a register (10_state R55, log 13) -/

@[simp] theorem State.outsideWrite_inst_same (s : State) (i : InstId) (id : RegId) (v : Nat) :
    (s.outsideWrite i id v).inst i
      = { s.inst i with regs := (s.inst i).regs.write id (v % 2 ^ id.width (s.spec i)) } :=
  State.setRegs_inst_same s i _

theorem State.outsideWrite_inst_other (s : State) (id : RegId) (v : Nat) {i j : InstId} (h : j ≠ i) :
    (s.outsideWrite i id v).inst j = s.inst j := State.setRegs_inst_other s _ h

@[simp] theorem State.outsideWrite_gpioDir (s : State) (i : InstId) (id : RegId) (v : Nat) :
    (s.outsideWrite i id v).gpioDir = s.gpioDir := State.setRegs_gpioDir s i _
@[simp] theorem State.outsideWrite_rsp (s : State) (i : InstId) (id : RegId) (v : Nat) :
    (s.outsideWrite i id v).rsp = s.rsp := State.setRegs_rsp s i _
@[simp] theorem State.outsideWrite_schedule (s : State) (i : InstId) (id : RegId) (v : Nat) :
    (s.outsideWrite i id v).schedule = s.schedule := State.setRegs_schedule s i _

/-- A value cut to a register's width and written is what the register holds (log 13). -/
theorem RegBlock.read_write_cut (r : RegBlock) (id : RegId) (v : Nat) (p : PeripheralSpec) :
    (r.write id (v % 2 ^ id.width p)).read id = v % 2 ^ id.width p :=
  RegBlock.read_write_same r id _ p (Nat.mod_lt _ (Nat.two_pow_pos _))

/-! ### Contents for `GPIO_DIR` from outside (10_state R49, 70_reset R241, R252; log 13) -/

@[simp] theorem State.outsideDir_inst (s : State) (v : Nat) (i : InstId) : (s.outsideDir v).inst i = s.inst i :=
  State.setGpioDir_inst s _ i

/-- After a whole-word write a direction bit is the bit written, if it is a bit of `GPIO_DIR`. -/
theorem State.isOutput_outsideDir (s : State) (v b : Nat) :
    (s.outsideDir v).isOutput b = (decide (b < s.cfg.gpioW) && v.testBit b) := Nat.testBit_mod_two_pow v _ b

/-- After the power returned a direction bit is that of the contents, if it is a bit of `GPIO_DIR`. -/
theorem State.isOutput_powerUp (s : State) (c : Contents) (b : Nat) :
    (s.powerUp c).isOutput b = (decide (b < s.cfg.gpioW) && c.gpioDir.testBit b) := Nat.testBit_mod_two_pow c.gpioDir _ b

/-- After the power returned every instance is `Idle` with nothing pending (70_reset R240). -/
theorem State.powerUp_idle (s : State) (c : Contents) (i : InstId) :
    ((s.powerUp c).inst i).cond = .idle ∧ ((s.powerUp c).inst i).waiting = [] := by
  cases i <;> exact ⟨rfl, rfl⟩

/-! ### The choice with an empty schedule (log 7) -/

/-- With an empty schedule nobody takes a turn only where no instance has anything to do. -/
theorem State.not_ready_of_nextReady_eq_none {s : State} (h : s.nextReady = none) (i : InstId) :
    (s.inst i).ready = false := by
  unfold State.nextReady at h
  split_ifs at h with h16 h8a h8b
  cases i with
  | t16 => exact Bool.eq_false_of_not_eq_true h16
  | t8a => exact Bool.eq_false_of_not_eq_true h8a
  | t8b => exact Bool.eq_false_of_not_eq_true h8b

/-! ### An acceptance that takes nothing -/

/-- `exec` accepts some outcome, whatever the operation (30_encoding R103). -/
theorem exec_eq_accept (instr : Instr) (s : State) : ∃ out, exec instr s = accept out s := by
  obtain ⟨out, hout⟩ := exec_accepts_fixed_outcome instr s.cfg s.active
  exact ⟨out, hout s rfl rfl⟩

/-- A turn of a `Busy` instance takes no request from its port (70_reset R253). -/
theorem instanceTurn_waiting_of_busy {s t : State} {i : InstId} {w : Transfer} {rest : List Transfer} {rsp : Response}
    (hc : (s.inst i).cond = .busy w rest rsp) (h : instanceTurn i s = .next t) :
    (t.inst i).waiting = (s.inst i).waiting := by
  rw [instanceTurn_busy hc] at h
  obtain ⟨-, -, rfl⟩ := makeTransfer_next h
  simp

/-! ### The state out of reset (10_state R54) -/

theorem RegBlock.zero_inRange (p : PeripheralSpec) : RegBlock.zero.InRange p := by
  intro id
  cases id <;> exact Nat.two_pow_pos _

/-- A state out of reset with well-formed parameters and contents in range meets the invariant: every instance is `Idle`. -/
theorem State.Inv.ofContents {cfg : Config} {c : Contents} (wf : cfg.WellFormed) (h16 : c.t16.InRange cfg.t16)
    (h8a : c.t8a.InRange cfg.t8a) (h8b : c.t8b.InRange cfg.t8b) (hgpio : c.gpioDir < 2 ^ cfg.gpioW) :
    (State.ofContents cfg c).Inv where
  config := wf
  regs i := by
    cases i with
    | t16 => exact h16
    | t8a => exact h8a
    | t8b => exact h8b
  cond i := by cases i <;> trivial
  gpio := hgpio

end Sys2Proof.Machine
end

section
/-! PROOFS. A written request line, read part by part (30_encoding R107, log 20). -/

namespace Sys2Proof.Machine

/-! ### Words -/

/-- A word is not found where another of its length stands. -/
theorem expectWord_append_eq_none {u v : List Char} (hlen : u.length = v.length) (hne : u ≠ v) (rest : List Char) :
    expectWord u (v ++ rest) = none := by
  induction u generalizing v with
  | nil => exact absurd (List.length_eq_zero_iff.mp hlen.symm).symm hne
  | cons a u ih =>
    cases v with
    | nil => cases hlen
    | cons b v =>
      by_cases h : a = b
      · subst h
        simpa [expectWord] using ih (by simpa using hlen) (by simpa using hne)
      · simp [expectWord, h]

/-- No space is skipped before a word that begins with none. -/
theorem skipSpaces_append {word : String} {c : Char} {w : List Char} (hw : word.toList = c :: w) (h : c ≠ ' ')
    (rest : List Char) : skipSpaces (word.toList ++ rest) = word.toList ++ rest := by
  rw [hw]
  exact skipSpaces_of_ne h _

/-! ### The operands -/

theorem operandEnds_comma (rest : List Char) : OperandEnds (',' :: rest) := .inr ⟨rest, rfl⟩

/-- Written operands of CFG.CTC. -/
def ctcOperands (period : Int) (ie : Bool) : List Char :=
  "period=".toList ++ ((writeInt period).toList ++ ',' :: ' ' :: ("ie=".toList ++ (writeFlag ie).toList))

/-- Written operands of CFG.PWM. -/
def pwmOperands (on period : Int) (pin : Option PinId) (ieA ieB : Bool) : List Char :=
  "on=".toList ++ ((writeInt on).toList ++ ',' :: ' ' :: ("period=".toList ++ ((writeInt period).toList
    ++ ',' :: ' ' :: ("pin=".toList ++ ((writePin pin).toList ++ ',' :: ' ' :: ("iea=".toList ++ ((writeFlag ieA).toList
    ++ ',' :: ' ' :: ("ieb=".toList ++ (writeFlag ieB).toList))))))))

/-- The flag at the end of a line is read back. -/
theorem readFlag_last (b : Bool) : readFlag (writeFlag b).toList = some (b, []) := by
  simpa using readFlag_writeFlag b []

/-- Written operands of CFG.CTC are read back (30_encoding R107). -/
theorem readCtc_ctcOperands (tps : Nat) (period : Int) (ie : Bool) :
    readCtc tps (ctcOperands period ie) = some (.cfgCtc period ie) := by
  have hie := fun rest => nextOperand_append (name := "ie=") rfl (by decide) rest
  unfold readCtc ctcOperands
  rw [skipSpaces_append (word := "period=") rfl (by decide), expectWord_append]
  simp only [Option.bind_eq_bind, Option.bind_some, readDuration_writeInt tps period (operandEnds_comma _), hie,
    readFlag_last, skipSpaces, if_true]

/-- Written operands of CFG.PWM are read back (30_encoding R107). -/
theorem readPwm_pwmOperands (tps : Nat) (on period : Int) (pin : Option PinId) (ieA ieB : Bool) :
    readPwm tps (pwmOperands on period pin ieA ieB) = some (.cfgPwm on period pin ieA ieB) := by
  have hperiod := fun rest => nextOperand_append (name := "period=") rfl (by decide) rest
  have hpin := fun rest => nextOperand_append (name := "pin=") rfl (by decide) rest
  have hieA := fun rest => nextOperand_append (name := "iea=") rfl (by decide) rest
  have hieB := fun rest => nextOperand_append (name := "ieb=") rfl (by decide) rest
  unfold readPwm pwmOperands
  rw [skipSpaces_append (word := "on=") rfl (by decide), expectWord_append]
  simp only [Option.bind_eq_bind, Option.bind_some, readDuration_writeInt tps _ (operandEnds_comma _), hperiod, hpin, hieA,
    hieB, readPin_writePin pin (operandEnds_comma _), readFlag_writeFlag, readFlag_last, skipSpaces, if_true]

/-! ### The operation and the instance -/

/-- The mnemonic of an operation and its operands, as they are written. -/
def operationText : Instr → List Char
  | .cfgCtc period ie => "CFG.CTC ".toList ++ ctcOperands period ie
  | .cfgPwm on period pin ieA ieB => "CFG.PWM ".toList ++ pwmOperands on period pin ieA ieB

/-- A well-formed operation is read back from its text (30_encoding R92, R107). -/
theorem readOperation_operationText (tps : Nat) {instr : Instr} (h : instr.wf = true) :
    readOperation tps (operationText instr) = some instr := by
  cases instr with
  | cfgCtc period ie =>
    unfold readOperation operationText
    rw [expectWord_append]
    simp only [readCtc_ctcOperands, Option.filter_some, h, if_true]
  | cfgPwm on period pin ieA ieB =>
    have hctc := expectWord_append_eq_none (u := "CFG.CTC ".toList) (v := "CFG.PWM ".toList) (by decide) (by decide)
    unfold readOperation operationText
    rw [hctc, expectWord_append]
    simp only [Option.bind_some, readPwm_pwmOperands, Option.filter_some, h, if_true]

/-- A line is the name of the instance, a space, and the text of the operation. -/
theorem writeLine_toList (c : Config) (i : InstId) (instr : Instr) :
    (writeLine c i instr).toList = ((c.spec i).name.toList ++ [' ']) ++ operationText instr := by
  cases instr with
  | cfgCtc period ie =>
    simp only [writeLine, String.toList_append, List.append_assoc]
    rfl
  | cfgPwm on period pin ieA ieB =>
    simp only [writeLine, String.toList_append, List.append_assoc]
    rfl

/-- The instance named first is found: the three names have one length and differ. -/
theorem readInstance_append {c : Config} (h16 : c.t16.name = "T16") (h8a : c.t8a.name = "T8A") (h8b : c.t8b.name = "T8B")
    (i : InstId) (rest : List Char) :
    readInstance c (((c.spec i).name.toList ++ [' ']) ++ rest) = some (i, rest) := by
  have hlen : ∀ j, (c.spec j).name.toList.length = 3 := by
    intro j
    cases j <;> simp [Config.spec, h16, h8a, h8b]
  have hne : ∀ j, j ≠ i → (c.spec j).name ≠ (c.spec i).name := by
    intro j hj
    cases i <;> cases j <;> simp_all [Config.spec]
  have other : ∀ j, j ≠ i →
      expectWord ((c.spec j).name.toList ++ [' ']) (((c.spec i).name.toList ++ [' ']) ++ rest) = none := by
    intro j hj
    refine expectWord_append_eq_none (by simp only [List.length_append, hlen]) (fun e => hne j hj ?_) rest
    exact String.toList_inj.mp (List.append_cancel_right e)
  unfold readInstance
  cases i with
  | t16 => simp only [List.findSome?, expectWord_append, Option.map_some]
  | t8a => simp only [List.findSome?, other .t16 nofun, expectWord_append, Option.map_none, Option.map_some]
  | t8b =>
    simp only [List.findSome?, other .t16 nofun, other .t8a nofun, expectWord_append, Option.map_none, Option.map_some]

/-- The text of an operation begins with no space. -/
theorem skipSpaces_operationText (instr : Instr) : skipSpaces (operationText instr) = operationText instr := by
  cases instr with
  | cfgCtc => exact skipSpaces_append (word := "CFG.CTC ") rfl (by decide) _
  | cfgPwm => exact skipSpaces_append (word := "CFG.PWM ") rfl (by decide) _

end Sys2Proof.Machine
end

section
/-! PROOFS. The statements about the agents' acts, acceptance and the textual syntax that are no operation's own. -/

open Sys2Proof Sys2Proof.Machine

/-- Settles O10: whoever an empty schedule gives the turn to has something to do, and where it gives it to nobody, nobody has. -/
theorem emptyScheduleRunsAReadyInstance : Obligations.EmptyScheduleRunsAReadyInstance := by
  intro s hs
  obtain ⟨e, later, hs', -⟩ | ⟨i, -, hn, hstep⟩ | ⟨-, hn, hstep⟩ := step_cases s
  · cases hs.symm.trans hs'
  · have hready := State.ready_of_nextReady hn
    exact ⟨fun _ => ⟨i, hready, hstep⟩, fun hnone => absurd hready (Bool.eq_false_iff.mp (hnone i))⟩
  · have hnone := State.not_ready_of_nextReady_eq_none hn
    exact ⟨fun ⟨i, hready⟩ => absurd hready (Bool.eq_false_iff.mp (hnone i)), fun _ => hstep⟩

/-- Settles O38: presenting a request appends it to the port's queue, and at a Busy instance neither a turn, which is a
transfer, nor `exec` takes one. -/
theorem busyInstanceHoldsRequests : Obligations.BusyInstanceHoldsRequests := by
  refine ⟨fun s i r later hs => ?_, fun s t i w rest rsp later hs hc h => ?_, fun s instr w rest rsp hc => ?_⟩
  · obtain ⟨-, -, hregs⟩ := setSchedule_beginStep_leftAlone s later i
    refine ⟨_, step_event hs, by simp, by simp, by simpa using hregs, by simp, by simp, by simp, fun j hj => ?_⟩
    rw [State.present_inst_other _ r hj]
    exact setSchedule_beginStep_leftAlone s later j
  · rw [step_turn hs] at h
    simpa using instanceTurn_waiting_of_busy (by simpa using hc) h
  · obtain ⟨out, hout⟩ := exec_eq_accept instr s
    exact hout.trans (accept_busy out s hc)

/-- Settles O46: the bits after the write are those of the word written, and no instance has a part of `GPIO_DIR`. -/
theorem outsideDirectionWriteCanClearABit : Obligations.OutsideDirectionWriteCanClearABit := by
  intro s later v b hs hb
  refine ⟨_, step_event hs, ?_, fun b' hb' => ?_, rfl, fun j => ?_⟩
  · simp [State.isOutput_outsideDir, hb]
  · simp [State.isOutput_outsideDir, Nat.not_lt.mpr hb']
  · rw [State.outsideDir_inst]
    exact setSchedule_beginStep_leftAlone s later j

/-- Settles O47: the block is the one the counters' movement left, with one register written. -/
theorem outsideWriteChangesOneRegister : Obligations.OutsideWriteChangesOneRegister := by
  intro s later i id v hs
  obtain ⟨-, -, hread, hcnt⟩ := setSchedule_beginStep_leftAlone s later i
  refine ⟨_, step_event hs, ?_, fun id' hid hne => ?_, fun hid hstopped => ?_, by simp, by simp, by simp, by simp, by simp,
    by simp, fun j hj => ?_⟩
  · simpa using RegBlock.read_write_cut _ id v (s.spec i)
  · rw [State.outsideWrite_inst_same]
    exact (RegBlock.read_write_other _ _ hid).trans (hread id' hne)
  · rw [State.outsideWrite_inst_same]
    exact (RegBlock.read_write_other _ _ hid.symm).trans (hcnt hstopped)
  · rw [State.outsideWrite_inst_other _ id v hj]
    exact setSchedule_beginStep_leftAlone s later j

/-- Settles O50: by what the return of the power makes of the instances and of `GPIO_DIR`. -/
theorem powerUpMakesEveryInstanceIdle : Obligations.PowerUpMakesEveryInstanceIdle := by
  intro s c later hs
  exact ⟨_, step_event hs, rfl, rfl, rfl, State.powerUp_idle _ c, rfl, rfl, rfl, State.isOutput_powerUp _ c⟩

/-- Settles O23: `exec` is an acceptance, which looks at the parameters first. -/
theorem illFormedSpecIsRefused : Obligations.IllFormedSpecIsRefused := by
  intro s instr hill hidle
  obtain ⟨out, hout⟩ := exec_eq_accept instr s
  exact hout.trans (accept_illFormed out s hidle hill)

/-- Settles O51: the reset state is one out of reset, with the reference parameters and 0 everywhere. -/
theorem resetStatesMeetTheInvariant : Obligations.ResetStatesMeetTheInvariant :=
  ⟨State.Inv.ofContents Config.reference_wellFormed (RegBlock.zero_inRange _) (RegBlock.zero_inRange _)
    (RegBlock.zero_inRange _) (Nat.two_pow_pos _), fun _ _ wf h16 h8a h8b hgpio => State.Inv.ofContents wf h16 h8a h8b hgpio⟩

/-- Settles O5: a line is the instance's name and the text of the operation, and each part of it is read back. -/
theorem readingAWrittenLineGivesTheOperation : Obligations.ReadingAWrittenLineGivesTheOperation := by
  intro c i instr h16 h8a h8b hwf
  rw [readLine, writeLine_toList, readInstance_append h16 h8a h8b, Option.bind_some, skipSpaces_operationText,
    readOperation_operationText c.tps hwf, Option.map_some]

end
